-- ==== Sys2Proof/Word.lean ====
section
/-! DEFINITION. The word types of MULMOD: a byte (u8), a 256-bit latch value (u256) and a 32-byte
buffer (spec 00_scope R6, R9, R10; 30_encoding R46). An address
is a plain Nat: the spec adds to addresses exactly and never wraps them (R9, 20_memory R37). -/

namespace Sys2Proof

/-- A u8 (R9, R10): its value is its unsigned integer, bit 0 the least significant. -/
abbrev Byte := BitVec 8

/-- A u256 (R9): the width of the latches A, B and R (R20). -/
abbrev U256 := BitVec 256

/-- BUF_BYTES (R6): the bytes of one buffer. -/
abbrev bufBytes : Nat := 32

/-- A buffer `buf[0..31]` (R10, R46), its bytes in address order. It always has its 32 bytes. -/
structure Buf where
  bytes : List Byte
  length_eq : bytes.length = 32
deriving DecidableEq, Repr

end Sys2Proof
end

