-- ==== Sys2Proof/Config.lean ====
section
/-! DEFINITION. The parameters of spec 00_scope R7, which are configuration and not state (10_state R24), the
constraints on them (R8), the configuration of THIS hardware, and the free values of the model.

Every operation of the model takes the configuration as an argument, so that a claim may quantify over it (R24);
the machine itself runs `Config.hardware`. -/

namespace Sys2Proof

/-- NONCANON_MODE (R7): what FMUL returns when an operand is ≥ P (41_multiplier R70). -/
inductive NoncanonMode where
  | REDUCE
  | ANY
deriving DecidableEq, Repr

/-- ALIAS_OUT_MODE (R7): whether the output buffer may overlap an input buffer (42_ffi R83). -/
inductive AliasOutMode where
  | DEFINED
  | REFUSE
deriving DecidableEq, Repr

/-- The parameters of R7. -/
structure Config where
  /-- MODULUS, written P. -/
  modulus : Nat
  /-- ADDR_W, the width of a pointer in bits. -/
  addrW : Nat
  /-- ALIGN, in bytes. -/
  align : Nat
  noncanonMode : NoncanonMode
  aliasOutMode : AliasOutMode
  /-- The bytes of one word of a call descriptor: 8, and for ADDR_W > 64 as many as hold ADDR_W bits (R54;
  DESIGN CHOICE, log 18). -/
  descWordBytes : Nat
  /-- LATENCY: finite; no rule of the model depends on it (70_reset R117; log 4). -/
  latency : Nat
deriving DecidableEq, Repr

/-- The constraints R8 puts on MODULUS: prime, and 7 ≤ P < 2^256. -/
abbrev Config.IsModulus (p : Nat) : Prop := p.Prime ∧ 7 ≤ p ∧ p < 2 ^ 256

/-- A configuration the spec allows: R8 on the modulus, a positive ALIGN (R35), descriptor words that hold a
u64 and a pointer (R54). -/
structure Config.Admissible (c : Config) : Prop where
  modulus : Config.IsModulus c.modulus
  align : 0 < c.align
  descWordBytes : c.descWordBytes = max 8 ((c.addrW + 7) / 8)

/-- The value P_ED25519 of R8: a candidate from general knowledge, NOT this hardware's modulus. Only tests
instantiate it. -/
def Config.pEd25519 : Nat := 0x1000000000000000000000000000000014def9dea2f79cd65812631a5cf5d3ed

/-! The open values. No body: nothing can be proved of them beyond what the definitions below make of them. -/

/-- The open MODULUS (R7, D1; log 1), before R8's constraints are put on it. -/
opaque Config.rawModulus : Nat

/-- The open ADDR_W (R7, D2; log 2), before its bounds are put on it. -/
opaque Config.rawAddrW : Nat

/-- The open LATENCY (R7, D15; log 4). -/
opaque Config.rawLatency : Nat

/-- The free draws of NONCANON_MODE = ANY (41_multiplier R70), one for each value of State's draw counter (log 15). -/
opaque Config.freeDraw : Nat → Nat

/-- The free choices "old byte or new byte" of a reset during a call (70_reset R109), one for each value of State's
draw counter (log 16). -/
opaque Config.freeBit : Nat → Bool

/-- The modulus of this hardware: any value R8 allows, and nothing more is known of it (log 1). -/
def Config.hardwareModulus : Nat :=
  if Config.IsModulus Config.rawModulus then Config.rawModulus else 7

/-- The address width of this hardware: any value from 16 to 64, and nothing more is known of it. Its descriptors have
exactly 32 bytes (R57), so ADDR_W is at most 64; below 16 no C pointer is (PRESUMED, log 2). -/
def Config.hardwareAddrW : Nat := max 16 (min Config.rawAddrW 64)

/-- This hardware (R7): ALIGN = 8, REDUCE, DEFINED (log 3); MODULUS, ADDR_W and LATENCY are open. -/
def Config.hardware : Config where
  modulus := Config.hardwareModulus
  addrW := Config.hardwareAddrW
  align := 8
  noncanonMode := .REDUCE
  aliasOutMode := .DEFINED
  descWordBytes := 8
  latency := Config.rawLatency

end Sys2Proof
end

