-- ==== Sys2Proof/Syntax.lean ====
section
/-! DEFINITION. The instructions of MULMOD: one constructor for each of the four rows of spec/opcode_table.json
(30_encoding R53). -/

namespace Sys2Proof

/-- The two inputs of a call, each with its own latches: a with ABUF and A, b with BBUF and B (10_state R20). -/
inductive Side where
  | a
  | b
deriving DecidableEq, Repr

/-- The four operations (R53). -/
inductive Instr where
  /-- OPIDX 0, the exported `multiply(a_ptr, b_ptr, out_ptr)` (42_ffi R78). -/
  | multiply (aPtr bPtr outPtr : Nat)
  /-- OPIDX 1, the internal stage ABUF to A or BBUF to B (40_codec R61). -/
  | decode (side : Side)
  /-- OPIDX 2, the internal stage R to OBUF (40_codec R63). -/
  | encode
  /-- OPIDX 3, the internal stage A, B to R (41_multiplier R70). -/
  | fmul
deriving DecidableEq, Repr

end Sys2Proof
end

