-- ==== Sys2Proof/Machine/State.lean ====
section
/-! DEFINITION. The state of the machine as plain data (spec 10_state R20 to R26), the host's programs and the
schedule that the spec takes as parameters of a step (R27), the reasons a step can stop, and the state after reset. -/

namespace Sys2Proof.Machine

/-- Perm(addr) ∈ {NONE, R, RW} (20_memory R31). -/
inductive Perm where
  | NONE
  | R
  | RW
deriving DecidableEq, Repr

/-- The kinds of access a buffer is admitted for (20_memory R36). -/
inductive Access where
  | READ
  | WRITE
deriving DecidableEq, Repr

/-- Caller memory Mem (R25): its nonzero bytes, addresses strictly rising (`Memory.wf`). An unlisted address
reads 00 (DESIGN CHOICE, log 10). -/
abbrev Memory := List Host.Cell

/-- The permission map Perm (R25): its addresses that are not NONE, strictly rising (`PermMap.wf`). An unlisted
address is NONE (DESIGN CHOICE, log 11). -/
abbrev PermMap := List (Nat × Perm)

/-- The names of the per-call latches (R20). -/
inductive Latch where
  | ABUF
  | BBUF
  | A
  | B
  | R
  | OBUF
deriving DecidableEq, Repr

/-- The per-call latches (R20). `none` is the spec's own "no value" (R21, R26, 70_reset R108), not a missing reset
value (log 7). -/
structure Latches where
  abuf : Option Buf
  bbuf : Option Buf
  a : Option U256
  b : Option U256
  r : Option U256
  obuf : Option Buf
deriving DecidableEq, Repr

/-- No latch holds a value (R21, R107). -/
def Latches.empty : Latches := ⟨none, none, none, none, none, none⟩

/-- The abort fault: one constructor per row of 60_exceptions R92, each carrying the failing pointer. Which one it is,
no program can observe (R94; log 6). -/
inductive Abort where
  | nullA (ptr : Nat)
  | misalignedA (ptr : Nat)
  | unreadableA (ptr : Nat)
  | nullB (ptr : Nat)
  | misalignedB (ptr : Nat)
  | unreadableB (ptr : Nat)
  | nullOut (ptr : Nat)
  | misalignedOut (ptr : Nat)
  | unwritableOut (ptr : Nat)
deriving DecidableEq, Repr

/-- The call state of an agent (R22), computed by `State.callState`. -/
inductive CallState where
  | IDLE
  | ABORTED
deriving DecidableEq, Repr

/-- One action of a host program (30_encoding R59). -/
inductive HostAction where
  /-- MAP addr, n, perm. -/
  | map (addr : Nat) (n : Nat) (perm : Perm)
  /-- WRITE addr, bytes. -/
  | write (addr : Nat) (bytes : List Byte)
  /-- CALL, by its call descriptor (R54). -/
  | call (descriptor : List Byte)
  /-- COPY dst, src. -/
  | copy (dst src : Nat)
deriving DecidableEq, Repr

/-- A host program, what is left of it (R59): no line, a line and the rest, or REPEAT n { body } and the rest. -/
inductive Script where
  | done
  | line (action : HostAction) (rest : Script)
  | rep (n : Nat) (body rest : Script)
deriving DecidableEq, Repr

/-- A caller agent (60_exceptions R104). -/
structure Agent where
  program : Script
  /-- The script index (R17, R59): how many actions of its program the agent has done (log 13). -/
  index : Nat
  /-- Its call was cut by a reset and never returns (70_reset R109; log 16). -/
  lost : Bool
deriving DecidableEq, Repr

/-- What moves next; the schedule is free (60_exceptions R104; log 12). -/
inductive Event where
  /-- Agent k does its next action. -/
  | agent (k : Nat)
  /-- The platform resets MULMOD between calls (70_reset R107, R109). -/
  | reset
  /-- The platform resets MULMOD during the call agent k has next (R109). -/
  | resetDuring (k : Nat)
  /-- The model's bench runs an internal stage on its own (30_encoding R53; log 8). -/
  | bench (stage : List Byte)
deriving DecidableEq, Repr

/-- The machine. -/
structure State where
  /-- Caller memory (R25). -/
  mem : Memory
  /-- Its permission map (R25), which MULMOD only reads. -/
  perm : PermMap
  /-- The per-call latches (R20). -/
  latches : Latches
  /-- The recorded abort fault (R23, R26), sticky. -/
  abort : Option Abort
  /-- The caller agents and their programs (R27). -/
  agents : List Agent
  /-- The events still to come (R27). -/
  schedule : List Event
  /-- The model's own: how many free values were drawn, the index of the next one (log 15). -/
  draws : Nat
deriving DecidableEq, Repr

/-- Why the machine stops with a fault. -/
inductive Fault where
  /-- Raised by `step` in every state with a recorded abort: the process is terminated and no agent takes another
  step (R23, R93). Unsafe only for a claim about another process sharing the memory (log 5). -/
  | aborted (cause : Abort)
  /-- Raised by a stage that reads a latch the call has not written (R21, 93 U11); no call raises it. Safe. -/
  | emptyLatch (latch : Latch)
  /-- Raised by MemRead or MemWrite at an address without the permission it requires (20_memory R32, R33); no call
  raises it (42_ffi R80; log 19). Safe. -/
  | accessDenied (addr : Nat)
  /-- Raised by a host line at an address that does not exist (20_memory R28; log 14). Safe. -/
  | noSuchAddress (addr : Nat)
deriving DecidableEq, Repr

/-- Why a step is given no meaning. All of them are safe: nothing is claimed of such a run (70_reset R118). -/
inductive Refusal where
  /-- Raised by an arm of `exec` that has no meaning yet; no arm is such. -/
  | notModelled (mnemonic : String)
  /-- Raised by the decoder of call descriptors for w0 ∈ {1, 2, 3} (30_encoding R55, R60). -/
  | internalStage (w0 : Nat)
  /-- Raised by the same decoder for w0 ≥ 4 (R55, R60). -/
  | reserved (w0 : Nat)
  /-- Raised by it for a descriptor of another length (R57; log 20). -/
  | badLength (n : Nat)
  /-- Raised by the bench for stage words that name no stage (log 8). -/
  | stageOperand (w0 : Nat)
  /-- Raised by MULTIPLY under ALIAS_OUT_MODE = REFUSE when out overlaps an input (42_ffi R83). -/
  | aliasOut (outPtr : Nat)
deriving DecidableEq, Repr

/-- What every step and every meaning answers. -/
abbrev Result := Host.Outcome State Fault Refusal

/-- The state after reset (R26, 70_reset R107): no latch holds a value, no abort is recorded. Memory and its
permissions are the platform's: nothing listed (log 10, log 11). No program is loaded (log 9). -/
def State.reset : State where
  mem := []
  perm := []
  latches := Latches.empty
  abort := none
  agents := []
  schedule := []
  draws := 0

end Sys2Proof.Machine
end

