-- ==== Sys2Proof/Machine/Ops.lean ====
section
/-! DEFINITION. The named operations over the state: the sparse maps behind Mem and Perm, MemRead and MemWrite
(20_memory R32, R33; 00_scope R11), buffers, latches, and taking the abort (60_exceptions R93). -/

namespace Sys2Proof

/-! ## Buffers (30_encoding R46) -/

/-- The first 32 bytes of a sequence, filled up with 00 where it is shorter. -/
def Buf.ofBytes (l : List Byte) : Buf :=
  ⟨(l ++ List.replicate bufBytes 0).take bufBytes, by simp [bufBytes]⟩

/-- `buf[i]` (R10). -/
def Buf.get (buf : Buf) (i : Nat) : Byte := buf.bytes.getD i 0

/-- A buffer of 32 × 00. -/
def Buf.zero : Buf := Buf.ofBytes []

end Sys2Proof

namespace Sys2Proof.Machine

/-! ## Outcomes -/

/-- Go on with the next state; a fault or a refusal ends the sequence. -/
def andThen (o : Result) (f : State → Result) : Result :=
  match o with
  | .next s => f s
  | .fault r => .fault r
  | .refused r => .refused r

/-- An access that may be denied, as an outcome. -/
def ofAccess (e : Except Fault State) : Result :=
  match e with
  | .ok s => .next s
  | .error r => .fault r

/-! ## Sparse maps: address and value pairs over a default -/

/-- The value at an address; an unlisted address has the default. -/
def sparseGet {α : Type} (dflt : α) : List (Nat × α) → Nat → α
  | [], _ => dflt
  | (k, v) :: rest, a => if k = a then v else sparseGet dflt rest a

/-- Put a value at an address, keeping the canonical form: putting the default removes the entry. -/
def sparseSet {α : Type} [DecidableEq α] (dflt : α) : List (Nat × α) → Nat → α → List (Nat × α)
  | [], a, x => if x = dflt then [] else [(a, x)]
  | (k, v) :: rest, a, x =>
    if a < k then (if x = dflt then (k, v) :: rest else (a, x) :: (k, v) :: rest)
    else if a = k then (if x = dflt then rest else (a, x) :: rest)
    else (k, v) :: sparseSet dflt rest a x

/-- The canonical form from a lowest address on: addresses strictly rising, no entry equal to the default. -/
def sparseWfFrom {α : Type} [DecidableEq α] (dflt : α) : Nat → List (Nat × α) → Bool
  | _, [] => true
  | lo, (k, v) :: rest => decide (lo ≤ k) && decide (v ≠ dflt) && sparseWfFrom dflt (k + 1) rest

/-! ## Caller memory (R25, R28) -/

/-- What an unlisted address reads as (DESIGN CHOICE, log 10). -/
def unlistedByte : Byte := 0

/-- Mem(addr). -/
def Memory.byteAt (m : Memory) (a : Nat) : Byte := sparseGet unlistedByte m a

/-- Mem(addr) <- v. -/
def Memory.put (m : Memory) (a : Nat) (v : Byte) : Memory := sparseSet unlistedByte m a v

/-- Mem(addr + i) <- byte i, in increasing address order (R11). -/
def Memory.putBytes (m : Memory) (a : Nat) : List Byte → Memory
  | [] => m
  | v :: rest => Memory.putBytes (m.put a v) (a + 1) rest

/-- The n bytes at addr, addr + 1, … -/
def Memory.bytesAt (m : Memory) (a : Nat) : Nat → List Byte
  | 0 => []
  | n + 1 => m.byteAt a :: Memory.bytesAt m (a + 1) n

/-- The canonical form of memory. -/
def Memory.wf (m : Memory) : Bool := sparseWfFrom unlistedByte 0 m

/-! ## The permission map (R25, R31) -/

/-- Perm(addr); an unlisted address is NONE (log 11). -/
def PermMap.at (p : PermMap) (a : Nat) : Perm := sparseGet .NONE p a

/-- Perm(addr) <- x. -/
def PermMap.put (p : PermMap) (a : Nat) (x : Perm) : PermMap := sparseSet .NONE p a x

/-- Perm(addr..addr+n-1) <- x (30_encoding R59, MAP). -/
def PermMap.putRange (p : PermMap) (a : Nat) (x : Perm) : Nat → PermMap
  | 0 => p
  | n + 1 => PermMap.putRange (p.put a x) (a + 1) x n

/-- The canonical form of the permission map. -/
def PermMap.wf (p : PermMap) : Bool := sparseWfFrom Perm.NONE 0 p

/-- Whether a permission admits a kind of access: READ needs R or RW, WRITE needs RW (R31, R36). -/
def permits : Access → Perm → Bool
  | .READ, .R => true
  | .READ, .RW => true
  | .READ, .NONE => false
  | .WRITE, .RW => true
  | .WRITE, .R => false
  | .WRITE, .NONE => false

/-! ## MemRead and MemWrite (R32, R33) -/

/-- Whether one byte may be accessed (R31): a nonnull address of the address space with the permission. Address 0 is
never readable or writable (R34). -/
def State.allows (c : Config) (s : State) (k : Access) (a : Nat) : Bool :=
  decide (a ≠ 0) && decide (a < 2 ^ c.addrW) && permits k (s.perm.at a)

/-- MemRead(addr, 1): requires addr readable, returns Mem(addr), has no other effect (R32). -/
def memRead (c : Config) (s : State) (a : Nat) : Except Fault Byte :=
  if s.allows c .READ a then .ok (s.mem.byteAt a) else .error (.accessDenied a)

/-- MemWrite(addr, 1, v): requires addr writable, sets Mem(addr) and changes nothing else (R33). -/
def memWrite (c : Config) (s : State) (a : Nat) (v : Byte) : Except Fault State :=
  if s.allows c .WRITE a then .ok { s with mem := s.mem.put a v } else .error (.accessDenied a)

/-- MemRead(addr, n): the n one-byte accesses in increasing address order (R11). -/
def memReadN (c : Config) (s : State) (a : Nat) : Nat → Except Fault (List Byte)
  | 0 => .ok []
  | n + 1 =>
    match memRead c s a with
    | .error e => .error e
    | .ok v =>
      match memReadN c s (a + 1) n with
      | .error e => .error e
      | .ok rest => .ok (v :: rest)

/-- MemWrite(addr, n, v): the n one-byte accesses in increasing address order (R11). -/
def memWriteN (c : Config) (s : State) (a : Nat) : List Byte → Except Fault State
  | [] => .ok s
  | v :: rest =>
    match memWrite c s a v with
    | .error e => .error e
    | .ok t => memWriteN c t (a + 1) rest

/-! ## Buffers in memory (30_encoding R46) -/

/-- The buffer that Mem holds at a pointer: byte i is at pointer + i (R46, R56). -/
@[irreducible] def State.bufAt (s : State) (p : Nat) : Buf := Buf.ofBytes (s.mem.bytesAt p bufBytes)

/-! ## Latches (10_state R20, R21) -/

/-- Drop every latch: they are gone when a call returns or aborts (R21), and after a reset (70_reset R108). -/
def State.clearLatches (s : State) : State := { s with latches := Latches.empty }

/-- ABUF or BBUF. -/
def Latches.inputBuf (l : Latches) : Side → Option Buf
  | .a => l.abuf
  | .b => l.bbuf

/-- ABUF <- buf or BBUF <- buf. -/
def Latches.setInputBuf (l : Latches) : Side → Buf → Latches
  | .a, buf => { l with abuf := some buf }
  | .b, buf => { l with bbuf := some buf }

/-- The name of a side's buffer latch. -/
def bufLatch : Side → Latch
  | .a => .ABUF
  | .b => .BBUF

/-- A <- v or B <- v. -/
def Latches.setOperand (l : Latches) : Side → U256 → Latches
  | .a, v => { l with a := some v }
  | .b, v => { l with b := some v }

/-! ## Exceptions (60_exceptions R91 to R100) -/

/-- The cause code of an abort (R92). -/
def Abort.code : Abort → Nat
  | .nullA _ => 1
  | .misalignedA _ => 2
  | .unreadableA _ => 3
  | .nullB _ => 4
  | .misalignedB _ => 5
  | .unreadableB _ => 6
  | .nullOut _ => 7
  | .misalignedOut _ => 8
  | .unwritableOut _ => 9

/-- The value recorded with it: the failing pointer (R92). -/
def Abort.ptr : Abort → Nat
  | .nullA p => p
  | .misalignedA p => p
  | .unreadableA p => p
  | .nullB p => p
  | .misalignedB p => p
  | .unreadableB p => p
  | .nullOut p => p
  | .misalignedOut p => p
  | .unwritableOut p => p

/-- Taking the abort (R93): the fault is recorded, memory is as it was, the call's latches are gone (R21). Nothing is
saved and nothing is vectored to (R98); every agent stops, which `step` sees to. No return from it exists (R99). -/
def raiseAbort (cause : Abort) (s : State) : State :=
  { s with latches := Latches.empty, abort := some cause }

/-- The call state of an agent (R22): IDLE, or ABORTED, which is the state of the whole system (R23). -/
def State.callState (s : State) : CallState :=
  match s.abort with
  | none => .IDLE
  | some _ => .ABORTED

/-- A reset of MULMOD (70_reset R107, R108): no latch holds a value and no abort is recorded; Mem, Perm and the
callers' programs are not MULMOD's and stay. -/
def platformReset (s : State) : State :=
  { s with latches := Latches.empty, abort := none }

end Sys2Proof.Machine
end

