-- ==== Sys2Proof/Machine/Codec.lean ====
section
/-! DEFINITION. The Field Element Codec (spec 40_codec): DECODE (R61) and ENCODE (R63).
The two functions are irreducible: proofs use their laws, and do not compute them. -/

namespace Sys2Proof.Machine

/-- Limb k of a buffer: Σ_{j<8} buf[8k+j] · 2^(8j) (R61, 30_encoding R47). -/
def limbOf (buf : Buf) (k : Nat) : Nat :=
  (List.range 8).foldl (fun limb j => limb + (buf.get (8 * k + j)).toNat * 2 ^ (8 * j)) 0

/-- DECODE(buf): the four limbs, least significant first (R61). No reduction, no range check (R62). -/
@[irreducible] def decodeBuf (buf : Buf) : Nat :=
  (List.range 4).foldl (fun v k => v + limbOf buf k * 2 ^ (64 * k)) 0

/-- v[hi:lo] with n = hi - lo + 1 bits (00_scope R10). -/
def bitField (v lo n : Nat) : Nat := v / 2 ^ lo % 2 ^ n

/-- The 32 bytes of ENCODE(x): limb k is x[64k+63:64k], and byte 8k+j is limb[8j+7:8j] (R63). -/
@[irreducible] def encodeBytes (x : Nat) : List Byte :=
  (List.range 4).flatMap fun k =>
    (List.range 8).map fun j => BitVec.ofNat 8 (bitField (bitField x (64 * k) 64) (8 * j) 8)

theorem encodeBytes_length (x : Nat) : (encodeBytes x).length = 32 := by
  unfold encodeBytes
  simp [List.length_flatMap]

/-- ENCODE(x) (R63). -/
def encodeVal (x : Nat) : Buf := ⟨encodeBytes x, encodeBytes_length x⟩

/-- DECODE as a stage: ABUF to A, or BBUF to B (R61). No flag, no memory access, no exception (R67). -/
def decodeStage (side : Side) (s : State) : Result :=
  match s.latches.inputBuf side with
  | none => .fault (.emptyLatch (bufLatch side))
  | some buf => .next { s with latches := s.latches.setOperand side (BitVec.ofNat 256 (decodeBuf buf)) }

/-- ENCODE as a stage: R to OBUF (R63). No flag, no memory access, no exception (R67). -/
def encodeStage (s : State) : Result :=
  match s.latches.r with
  | none => .fault (.emptyLatch .R)
  | some r => .next { s with latches := { s.latches with obuf := some (encodeVal r.toNat) } }

/-- DECODE (opcode table row OPIDX 1). -/
def execDecode (side : Side) (s : State) : Result := decodeStage side s

/-- ENCODE (opcode table row OPIDX 2). -/
def execEncode (s : State) : Result := encodeStage s

end Sys2Proof.Machine
end

