-- ==== Sys2Proof/Machine/Multiplier.lean ====
section
/-! DEFINITION. The Field Multiplier (spec 41_multiplier): FMUL (R70). -/

namespace Sys2Proof.Machine

/-- The n-th draw of NONCANON_MODE = ANY: any value in [0, P), a free value (R70; log 15). -/
def anyDraw (c : Config) (n : Nat) : Nat := Config.freeDraw n % c.modulus

/-- Both operands are canonical, the case the source specifies (R70). -/
def bothCanonical (c : Config) (a b : Nat) : Bool := decide (a < c.modulus) && decide (b < c.modulus)

/-- Whether FMUL takes a draw (R70). -/
def usesDraw (c : Config) (a b : Nat) : Bool :=
  !bothCanonical c a b && decide (c.noncanonMode = .ANY)

/-- FMUL(A, B) (R70), n being the draw it would take: the exact product, then the exact remainder (R71). -/
def fmul (c : Config) (a b n : Nat) : Nat :=
  if bothCanonical c a b then a * b % c.modulus
  else
    match c.noncanonMode with
    | .REDUCE => a * b % c.modulus
    | .ANY => anyDraw c n

/-- FMUL as a stage: A and B to R (R70). No flag, no memory access, no exception (R75). -/
def fmulStage (c : Config) (s : State) : Result :=
  match s.latches.a, s.latches.b with
  | some a, some b =>
    .next { s with
      latches := { s.latches with r := some (BitVec.ofNat 256 (fmul c a.toNat b.toNat s.draws)) }
      draws := if usesDraw c a.toNat b.toNat then s.draws + 1 else s.draws }
  | none, _ => .fault (.emptyLatch .A)
  | some _, none => .fault (.emptyLatch .B)

/-- FMUL (opcode table row OPIDX 3) on this hardware. -/
def execFmul (s : State) : Result := fmulStage Config.hardware s

end Sys2Proof.Machine
end

