-- ==== Sys2Proof/Machine/Operands.lean ====
section
/-! DEFINITION. The pointer operands of a call and their validation (20_memory R34 to R37; 42_ffi R79, R80, R83). -/

namespace Sys2Proof.Machine

/-- The three pointer operands (30_encoding R52). -/
inductive PtrArg where
  | a
  | b
  | out
deriving DecidableEq, Repr

/-- The three checks of one pointer, in their order (R79). -/
inductive PtrCheck where
  | null
  | misaligned
  | inaccessible
deriving DecidableEq, Repr

/-- The access a pointer's buffer is admitted for (R52). -/
def accessOf : PtrArg → Access
  | .a => .READ
  | .b => .READ
  | .out => .WRITE

/-- InRange(ptr): the buffer's last byte is in the address space (R36). No address wraps (R37). -/
def inRange (c : Config) (p : Nat) : Bool := decide (p + 31 ≤ 2 ^ c.addrW - 1)

/-- Accessible(ptr, k): in range, and each of the 32 bytes has the permission (R36). -/
def accessible (c : Config) (s : State) (k : Access) (p : Nat) : Bool :=
  inRange c p && (List.range bufBytes).all fun i => permits k (s.perm.at (p + i))

/-- CheckPtr: the first failing check of one pointer (R79). -/
def checkPtr (c : Config) (s : State) (k : Access) (p : Nat) : Option PtrCheck :=
  if p = 0 then some .null
  else if p % c.align ≠ 0 then some .misaligned
  else if accessible c s k p then none
  else some .inaccessible

/-- A_CODES, B_CODES and OUT_CODES (R79, R92): the abort of a pointer's failing check. -/
def abortOf : PtrArg → PtrCheck → Nat → Abort
  | .a, .null, p => .nullA p
  | .a, .misaligned, p => .misalignedA p
  | .a, .inaccessible, p => .unreadableA p
  | .b, .null, p => .nullB p
  | .b, .misaligned, p => .misalignedB p
  | .b, .inaccessible, p => .unreadableB p
  | .out, .null, p => .nullOut p
  | .out, .misaligned, p => .misalignedOut p
  | .out, .inaccessible, p => .unwritableOut p

/-- The abort of one pointer, if a check fails. -/
def ptrAbort (c : Config) (s : State) (arg : PtrArg) (p : Nat) : Option Abort :=
  (checkPtr c s (accessOf arg) p).map fun chk => abortOf arg chk p

/-- Validation of a call: a, then b, then out; the first failing check gives the abort (R80, R95). -/
def validate (c : Config) (s : State) (aPtr bPtr outPtr : Nat) : Option Abort :=
  match ptrAbort c s .a aPtr with
  | some cause => some cause
  | none =>
    match ptrAbort c s .b bPtr with
    | some cause => some cause
    | none => ptrAbort c s .out outPtr

/-- Overlaps(p, q): two buffers share a byte (R78). -/
def overlaps (p q : Nat) : Bool := decide (p < q + 32) && decide (q < p + 32)

/-- Whether the out buffer overlaps an input (R83). -/
def outOverlaps (aPtr bPtr outPtr : Nat) : Bool := overlaps outPtr aPtr || overlaps outPtr bPtr

/-- What step 1 of MULTIPLY answers (R78). -/
inductive Admission where
  | abort (cause : Abort)
  | refuse
  | admitted
deriving DecidableEq, Repr

/-- Step 1 of MULTIPLY: validation first, then ALIAS_OUT_MODE (R78). -/
def admission (c : Config) (s : State) (aPtr bPtr outPtr : Nat) : Admission :=
  match validate c s aPtr bPtr outPtr with
  | some cause => .abort cause
  | none => if c.aliasOutMode = .REFUSE ∧ outOverlaps aPtr bPtr outPtr then .refuse else .admitted

end Sys2Proof.Machine
end

