-- ==== Sys2Proof/Machine/Boundary.lean ====
section
/-! DEFINITION. The FFI Boundary (spec 42_ffi_boundary): MULTIPLY (R78), as the sequence validate, read, decode,
multiply, encode, write, return. -/

namespace Sys2Proof.Machine

/-- The read of one input buffer into ABUF or BBUF (R81). -/
def loadInput (c : Config) (side : Side) (p : Nat) (s : State) : Result :=
  match memReadN c s p bufBytes with
  | .error e => .fault e
  | .ok bytes => .next { s with latches := s.latches.setInputBuf side (Buf.ofBytes bytes) }

/-- Steps 2 and 3 of R78: both reads, two DECODEs, FMUL, ENCODE, on latches the call has itself written (R21). Caller
memory is only read. -/
def computeProduct (c : Config) (aPtr bPtr : Nat) (s : State) : Result :=
  andThen (loadInput c .a aPtr s.clearLatches) fun s =>
  andThen (loadInput c .b bPtr s) fun s =>
  andThen (decodeStage .a s) fun s =>
  andThen (decodeStage .b s) fun s =>
  andThen (fmulStage c s) fun s =>
  encodeStage s

/-- Step 4 of R78: all 32 bytes of OBUF to the out buffer (R82). -/
def storeOutput (c : Config) (outPtr : Nat) (s : State) : Result :=
  match s.latches.obuf with
  | none => .fault (.emptyLatch .OBUF)
  | some buf => ofAccess (memWriteN c s outPtr buf.bytes)

/-- MULTIPLY(a_ptr, b_ptr, out_ptr) (R78). The return gives no value and leaves no latch (R84, R21). -/
def multiply (c : Config) (aPtr bPtr outPtr : Nat) (s : State) : Result :=
  match admission c s aPtr bPtr outPtr with
  | .abort cause => .next (raiseAbort cause s)
  | .refuse => .refused (.aliasOut outPtr)
  | .admitted =>
    andThen (computeProduct c aPtr bPtr s) fun s =>
    andThen (storeOutput c outPtr s) fun s =>
    .next s.clearLatches

/-- MULTIPLY (opcode table row OPIDX 0) on this hardware. -/
def execMultiply (aPtr bPtr outPtr : Nat) (s : State) : Result :=
  multiply Config.hardware aPtr bPtr outPtr s

end Sys2Proof.Machine
end

