-- ==== Sys2Proof/Machine/Dispatch.lean ====
section
/-! DEFINITION. The dispatch: one arm for each constructor of Instr. -/

namespace Sys2Proof.Machine

def exec (i : Instr) (s : State) : Host.Outcome State Fault Refusal :=
  match i with
  | .multiply aPtr bPtr outPtr => Sys2Proof.Machine.execMultiply aPtr bPtr outPtr s
  | .decode side => Sys2Proof.Machine.execDecode side s
  | .encode => Sys2Proof.Machine.execEncode s
  | .fmul => Sys2Proof.Machine.execFmul s

end Sys2Proof.Machine
end

