-- ==== Sys2Proof/WellFormed.lean ====
section
/-! DEFINITION. Which instructions are well formed: each pointer operand is an ADDR_W-bit unsigned integer
(30_encoding R52, R56). An internal stage has no such operand. -/

namespace Sys2Proof

/-- Each pointer of a call is below 2^ADDR_W (R52). Null, misaligned and inaccessible pointers are well formed:
they are rejected at execution, not here (R55). -/
def wellFormed (c : Config) : Instr → Bool
  | .multiply aPtr bPtr outPtr =>
    decide (aPtr < 2 ^ c.addrW) && decide (bPtr < 2 ^ c.addrW) && decide (outPtr < 2 ^ c.addrW)
  | .decode _ => true
  | .encode => true
  | .fmul => true

end Sys2Proof
end

