-- ==== Sys2Proof/Decode.lean ====
section
/-! DEFINITION. Bytes to instructions and back: the call descriptor of spec 30_encoding R54, its total decoder (R60),
the stage words of the model's bench (log 8), and the encoder. -/

namespace Sys2Proof

/-- The little-endian value of a byte sequence, Σ m[j] · 2^(8j) (20_memory R29). -/
def leValue : List Byte → Nat
  | [] => 0
  | m :: rest => m.toNat + 256 * leValue rest

/-- The n little-endian bytes of a value. -/
def leBytes : Nat → Nat → List Byte
  | 0, _ => []
  | n + 1, v => BitVec.ofNat 8 v :: leBytes n (v / 256)

/-- The four words of a descriptor (R54). -/
structure Descriptor where
  w0 : Nat
  w1 : Nat
  w2 : Nat
  w3 : Nat
deriving DecidableEq, Repr

/-- Why a decoder refuses (R60). -/
inductive DecodeRefusal where
  /-- w0 ∈ {1, 2, 3} at the host interface: the `internal-stage` of R60. -/
  | internalStage (w0 : Nat)
  /-- w0 ≥ 4: the `reserved` of R60. -/
  | reserved (w0 : Nat)
  /-- Not the one length a descriptor has (R57). -/
  | badLength (n : Nat)
  /-- A stage word of the bench with an operand that names no latch (log 8). -/
  | stageOperand (w0 : Nat)
deriving DecidableEq, Repr

/-- Word k of a sequence of n-byte little-endian words (R54). -/
def descWord (n k : Nat) (bytes : List Byte) : Nat := leValue ((bytes.drop (n * k)).take n)

/-- The four words of a descriptor; a decoder reads exactly their bytes (R54, R57). -/
def readWords (c : Config) (bytes : List Byte) : Except DecodeRefusal Descriptor :=
  if bytes.length = 4 * c.descWordBytes then
    .ok ⟨descWord c.descWordBytes 0 bytes, descWord c.descWordBytes 1 bytes,
      descWord c.descWordBytes 2 bytes, descWord c.descWordBytes 3 bytes⟩
  else .error (.badLength bytes.length)

/-- A pointer operand: the field w[ADDR_W-1:0] of its word, used unchanged (R56, opcode_table.json). -/
def pointerField (c : Config) (w : Nat) : Nat := w % 2 ^ c.addrW

/-- The host interface's reading of the four words (R55, R60). It never inspects a pointer. -/
def decodeCallWords (c : Config) (d : Descriptor) : Except DecodeRefusal Instr :=
  if d.w0 = 0 then .ok (.multiply (pointerField c d.w1) (pointerField c d.w2) (pointerField c d.w3))
  else if d.w0 ≤ 3 then .error (.internalStage d.w0)
  else .error (.reserved d.w0)

/-- The decoder of call descriptors, what a caller can say (R60). -/
def decodeDescriptor (c : Config) (bytes : List Byte) : Except DecodeRefusal Instr :=
  match readWords c bytes with
  | .ok d => decodeCallWords c d
  | .error e => .error e

/-- The bench's reading of the four words: the stage rows of the operation index (R53). The spec gives a stage no
operand words; w1 names the input of a DECODE and every other word is 0 (DESIGN CHOICE, log 8). -/
def decodeStageWords (d : Descriptor) : Except DecodeRefusal Instr :=
  if d.w2 = 0 ∧ d.w3 = 0 then
    match d.w0, d.w1 with
    | 1, 0 => .ok (.decode .a)
    | 1, 1 => .ok (.decode .b)
    | 2, 0 => .ok .encode
    | 3, 0 => .ok .fmul
    | w0, _ => .error (.stageOperand w0)
  else .error (.stageOperand d.w0)

/-- The operation index of R53 as one decoder: the three internal rows and the call. -/
def decodeOperationWords (c : Config) (d : Descriptor) : Except DecodeRefusal Instr :=
  if d.w0 = 1 ∨ d.w0 = 2 ∨ d.w0 = 3 then decodeStageWords d else decodeCallWords c d

/-- The decoder of all four rows of the opcode table: the call descriptor, and the stage words of the bench. -/
def decodeOperation (c : Config) (bytes : List Byte) : Except DecodeRefusal Instr :=
  match readWords c bytes with
  | .ok d => decodeOperationWords c d
  | .error e => .error e

/-- The words of an instruction (R53, R54). -/
def encodeWords : Instr → Descriptor
  | .multiply aPtr bPtr outPtr => ⟨0, aPtr, bPtr, outPtr⟩
  | .decode .a => ⟨1, 0, 0, 0⟩
  | .decode .b => ⟨1, 1, 0, 0⟩
  | .encode => ⟨2, 0, 0, 0⟩
  | .fmul => ⟨3, 0, 0, 0⟩

/-- The bytes of four words, each little-endian, the first at the lowest address (R54). -/
def wordsBytes (n : Nat) (d : Descriptor) : List Byte :=
  leBytes n d.w0 ++ leBytes n d.w1 ++ leBytes n d.w2 ++ leBytes n d.w3

/-- The encoder: the bytes of an instruction's descriptor. -/
def encode (c : Config) (i : Instr) : List Byte := wordsBytes c.descWordBytes (encodeWords i)

/-- The bytes of a row's instruction whose bits the opcode table numbers as w: 32 little-endian bytes of the low
nbits bits, every bit above them 0. -/
def tableBytes (nbits w : Nat) : List Byte := leBytes 32 (w % 2 ^ nbits)

/-- What the decoder reads from a word of the opcode table. -/
def decodeTableWord (nbits w : Nat) : Option Instr :=
  match decodeOperation Config.hardware (tableBytes nbits w) with
  | .ok i => some i
  | .error _ => none

end Sys2Proof
end

