-- ==== Sys2Proof/Machine/Script.lean ====
section
/-! DEFINITION. The host's programs (spec 30_encoding R59): the next action of a script, and what MAP, WRITE and COPY
do. They are the caller's own actions, not MULMOD's. -/

namespace Sys2Proof.Machine

/-- One script after another. -/
def Script.append : Script → Script → Script
  | .done, q => q
  | .line act rest, q => .line act (rest.append q)
  | .rep n body rest, q => .rep n body (rest.append q)

/-- The next action of a script and what is left after it; none when no action is left. REPEAT n runs its body n
times, n ≥ 0 (R59). -/
def Script.next : Script → Option (HostAction × Script)
  | .done => none
  | .line act rest => some (act, rest)
  | .rep 0 _ rest => rest.next
  | .rep (n + 1) body rest =>
    match body.next with
    | some (act, left) => some (act, left.append (.rep n body rest))
    | none => rest.next

/-- Whether the n addresses from a on are addresses (20_memory R28). -/
def inSpace (c : Config) (a : Nat) (n : Nat) : Bool := decide (a + n ≤ 2 ^ c.addrW)

/-- A host line whose addresses do not all exist (log 14). -/
def missingAddress (c : Config) (a : Nat) : Result := .fault (.noSuchAddress (max a (2 ^ c.addrW)))

/-- MAP addr, n, perm: set Perm(addr..addr+n-1) (R59). -/
def hostMap (c : Config) (a : Nat) (n : Nat) (x : Perm) (s : State) : Result :=
  if inSpace c a n then .next { s with perm := s.perm.putRange a x n } else missingAddress c a

/-- WRITE addr, bytes: set Mem(addr+i) to byte i, in address order, whatever Perm says (R59, 95 section 3). -/
def hostWrite (c : Config) (a : Nat) (bytes : List Byte) (s : State) : Result :=
  if inSpace c a bytes.length then .next { s with mem := s.mem.putBytes a bytes } else missingAddress c a

/-- COPY dst, src: copy 32 bytes (R59); they are read before they are written (DESIGN CHOICE, log 14). -/
def hostCopy (c : Config) (dst src : Nat) (s : State) : Result :=
  if inSpace c src bufBytes then hostWrite c dst (s.mem.bytesAt src bufBytes) s else missingAddress c src

/-- The check EXPECT addr, bytes (R59): not an action. -/
def expectBytes (s : State) (a : Nat) (bytes : List Byte) : Bool :=
  decide (s.mem.bytesAt a bytes.length = bytes)

/-- The check EXPECT ABORTED(code), for any pointer (R59). -/
def expectAborted (s : State) (code : Nat) : Bool :=
  match s.abort with
  | none => false
  | some cause => decide (cause.code = code)

/-- An agent after its next action, and that action: none for an agent that is not there, whose program has no action
left, or whose call was cut by a reset (R86, 70_reset R109). -/
def State.takeAction (s : State) (k : Nat) : Option (HostAction × State) :=
  match s.agents[k]? with
  | none => none
  | some ag =>
    if ag.lost then none
    else
      match ag.program.next with
      | none => none
      | some (act, left) =>
        some (act, { s with agents := s.agents.set k { ag with program := left, index := ag.index + 1 } })

end Sys2Proof.Machine
end

