-- ==== Sys2Proof/Machine/Fetch.lean ====
section
/-! DEFINITION. What a step does next: the next event of the schedule (spec 10_state R27), the decoding of a call
descriptor (30_encoding R60), resets (70_reset R107 to R109), and where the host places a descriptor. -/

namespace Sys2Proof.Machine

/-- What the next event comes to: an instruction to run in a state, or an outcome that runs none. -/
inductive Fetched where
  | run (i : Instr) (s : State)
  | other (o : Result)

/-- A decoder's refusal as the machine's. -/
def refusalOf : DecodeRefusal → Refusal
  | .internalStage w0 => .internalStage w0
  | .reserved w0 => .reserved w0
  | .badLength n => .badLength n
  | .stageOperand w0 => .stageOperand w0

/-- The bench reads stage words alone; it makes no call (log 8). -/
def decodeBench (c : Config) (bytes : List Byte) : Except DecodeRefusal Instr :=
  match readWords c bytes with
  | .ok d => decodeStageWords d
  | .error e => .error e

/-- A decoded instruction in the state it runs in, or the decoder's refusal. -/
def fetched (d : Except DecodeRefusal Instr) (s : State) : Fetched :=
  match d with
  | .ok i => .run i s
  | .error e => .other (.refused (refusalOf e))

/-- The bytes of the out buffer after a reset during the call: each one old or new, by a free choice (70_reset R109,
log 16). n indexes the first choice. -/
def cutBytes (n : Nat) : List Byte → List Byte → List Byte
  | old :: olds, new :: news => (if Config.freeBit n then new else old) :: cutBytes (n + 1) olds news
  | _, _ => []

/-- An agent whose call does not return (R109). -/
def State.loseAgent (s : State) (k : Nat) : State :=
  match s.agents[k]? with
  | none => s
  | some ag => { s with agents := s.agents.set k { ag with lost := true } }

/-- What a reset leaves of caller memory when it cuts a call that has computed OBUF (R109). -/
def cutStore (outPtr : Nat) (s : State) : Result :=
  match s.latches.obuf with
  | none => .fault (.emptyLatch .OBUF)
  | some buf =>
    .next { s with
      mem := s.mem.putBytes outPtr (cutBytes s.draws (s.mem.bytesAt outPtr bufBytes) buf.bytes)
      draws := s.draws + bufBytes }

/-- A reset during the call agent k has next (R109): the call does not return; if it had passed validation, each byte
of its out buffer is old or new; nothing else of memory changes. -/
def cutCall (c : Config) (k : Nat) (i : Instr) (s : State) : Result :=
  match i with
  | .multiply aPtr bPtr outPtr =>
    match admission c s aPtr bPtr outPtr with
    | .abort _ => .next (platformReset (s.loseAgent k))
    | .refuse => .refused (.aliasOut outPtr)
    | .admitted =>
      andThen (computeProduct c aPtr bPtr s) fun s =>
      andThen (cutStore outPtr s) fun s =>
      .next (platformReset (s.loseAgent k))
  | .decode _ => .next (platformReset s)
  | .encode => .next (platformReset s)
  | .fmul => .next (platformReset s)

/-- The event resetDuring k: agent k's next action is a call that the reset cuts; any other action is not MULMOD's,
and the reset falls between calls (log 16). -/
def resetDuringCall (c : Config) (k : Nat) (s : State) : Result :=
  match s.takeAction k with
  | some (.call descriptor, t) =>
    match decodeDescriptor c descriptor with
    | .ok i => cutCall c k i t
    | .error e => .refused (refusalOf e)
  | some (.map _ _ _, _) => .next (platformReset s)
  | some (.write _ _, _) => .next (platformReset s)
  | some (.copy _ _, _) => .next (platformReset s)
  | none => .next (platformReset s)

/-- The next action of agent k (R86): a call is decoded and run; an agent with no action left does nothing.
Every agent acts on the one Mem, so it sees another's earlier action whole and at once: R43 leaves that to the platform's
memory model (DESIGN CHOICE, log 23). -/
def agentTurn (c : Config) (k : Nat) (s : State) : Fetched :=
  match s.takeAction k with
  | none => .other (.next s)
  | some (.call descriptor, t) => fetched (decodeDescriptor c descriptor) t
  | some (.map a n x, t) => .other (hostMap c a n x t)
  | some (.write a bytes, t) => .other (hostWrite c a bytes t)
  | some (.copy dst src, t) => .other (hostCopy c dst src t)

/-- The next event of the schedule. With none left MULMOD stays idle: it does nothing between calls (60_exceptions
R106). -/
def fetch (c : Config) (s : State) : Fetched :=
  match s.schedule with
  | [] => .other (.next s)
  | .agent k :: rest => agentTurn c k { s with schedule := rest }
  | .reset :: rest => .other (.next (platformReset { s with schedule := rest }))
  | .resetDuring k :: rest => .other (resetDuringCall c k { s with schedule := rest })
  | .bench stage :: rest => fetched (decodeBench c stage) { s with schedule := rest }

/-- A new caller agent whose whole program is one call, scheduled next (log 9). -/
def State.withCall (s : State) (descriptor : List Byte) : State :=
  { s with
    agents := s.agents ++ [⟨.line (.call descriptor) .done, 0, false⟩]
    schedule := .agent s.agents.length :: s.schedule }

/-- The operand latches of a stage, 0 where they hold no value (log 9): a stage has no operand words, and may not read
a latch nothing has written (R21). -/
def Latches.fillOperands (l : Latches) : Instr → Latches
  | .decode .a => { l with abuf := some (l.abuf.getD Buf.zero) }
  | .decode .b => { l with bbuf := some (l.bbuf.getD Buf.zero) }
  | .encode => { l with r := some (l.r.getD 0) }
  | .fmul => { l with a := some (l.a.getD 0), b := some (l.b.getD 0) }
  | .multiply _ _ _ => l

/-- Where the next instruction is fetched from: a descriptor that the bench reads goes to the bench with its operand
latches filled, any other to a new caller agent (log 9). -/
def State.withDescriptor (c : Config) (s : State) (bytes : List Byte) : State :=
  match decodeBench c bytes with
  | .ok i =>
    { s with
      latches := s.latches.fillOperands i
      schedule := .bench bytes :: s.schedule }
  | .error _ => s.withCall bytes

end Sys2Proof.Machine
end

