-- ==== Sys2Proof/Machine/Step.lean ====
section
/-! DEFINITION. One step of the machine: nothing after an abort (spec 60_exceptions R93, 10_state R23), else the next
event. -/

namespace Sys2Proof.Machine

/-- One step. -/
def step (s : State) : Host.Outcome State Fault Refusal :=
  match s.abort with
  | some cause => .fault (.aborted cause)
  | none =>
    match fetch Config.hardware s with
    | .run i t => exec i t
    | .other o => o

/-- s with the instruction of a word of the opcode table placed where step fetches next (log 9). -/
def State.withFetchWord (s : State) (nbits w : Nat) : State :=
  s.withDescriptor Config.hardware (tableBytes nbits w)

end Sys2Proof.Machine
end

