-- ==== Sys2Proof/Safety.lean ====
section
/-! DEFINITION. The terms in which claims speak: the table of abort causes (spec 60_exceptions R92), the premise
BuffersExclusive (20_memory R44), the end of a run (70_reset R118), and the invariant of the machine. -/

namespace Sys2Proof.Machine

/-! ## Abort causes -/

/-- Some byte of the 32 at p lacks the permission, or the buffer passes the top of the address space: the cause column
of codes 3, 6 and 9 of R92. -/
def Unreachable (c : Config) (s : State) (k : Access) (p : Nat) : Prop :=
  p + 31 > 2 ^ c.addrW - 1 ∨ ∃ i < 32, permits k (s.perm.at (p + i)) = false

/-- The cause column of R92, code by code, each read on its own (no order among the checks). -/
def causeHolds (c : Config) (s : State) (aPtr bPtr outPtr : Nat) : Nat → Prop
  | 1 => aPtr = 0
  | 2 => aPtr % c.align ≠ 0
  | 3 => Unreachable c s .READ aPtr
  | 4 => bPtr = 0
  | 5 => bPtr % c.align ≠ 0
  | 6 => Unreachable c s .READ bPtr
  | 7 => outPtr = 0
  | 8 => outPtr % c.align ≠ 0
  | 9 => Unreachable c s .WRITE outPtr
  | _ => False

/-- The pointer an abort code speaks of: the value recorded of R92. -/
def causePtr (aPtr bPtr outPtr : Nat) (code : Nat) : Nat :=
  if code ≤ 3 then aPtr else if code ≤ 6 then bPtr else outPtr

/-- A pointer that passes all its checks (20_memory R36): nonnull, aligned, accessible. -/
def Admitted (c : Config) (s : State) (k : Access) (p : Nat) : Prop :=
  p ≠ 0 ∧ p % c.align = 0 ∧ accessible c s k p = true

/-- All three pointers of a call are admitted. -/
def CallAdmitted (c : Config) (s : State) (aPtr bPtr outPtr : Nat) : Prop :=
  Admitted c s .READ aPtr ∧ Admitted c s .READ bPtr ∧ Admitted c s .WRITE outPtr

/-! ## Concurrent callers -/

/-- The action agent k would do next. -/
def State.nextAction (s : State) (k : Nat) : Option HostAction := (s.takeAction k).map Prod.fst

/-- The three pointers of an action that is a call. -/
def callPtrs (c : Config) : HostAction → Option (Nat × Nat × Nat)
  | .call descriptor =>
    match decodeDescriptor c descriptor with
    | .ok (.multiply aPtr bPtr outPtr) => some (aPtr, bPtr, outPtr)
    | .ok (.decode _) => none
    | .ok .encode => none
    | .ok .fmul => none
    | .error _ => none
  | .map _ _ _ => none
  | .write _ _ => none
  | .copy _ _ => none

/-- The three pointers of a call that accesses memory: one that step 1 of MULTIPLY admits. A call that aborts reads and
writes no byte (42_ffi R80), nor does a refused one (R78). -/
def accessPtrs (c : Config) (s : State) (act : HostAction) : Option (Nat × Nat × Nat) :=
  match callPtrs c act with
  | some (aPtr, bPtr, outPtr) =>
    if admission c s aPtr bPtr outPtr = .admitted then some (aPtr, bPtr, outPtr) else none
  | none => none

/-- The ranges of memory an action writes, each an address and a length. A host line that faults writes none (log 14). -/
def writeRanges (c : Config) (s : State) (act : HostAction) : List (Nat × Nat) :=
  match act with
  | .write a bytes => if inSpace c a bytes.length then [(a, bytes.length)] else []
  | .copy dst src => if inSpace c src bufBytes && inSpace c dst bufBytes then [(dst, bufBytes)] else []
  | .map _ _ _ => []
  | .call _ =>
    match accessPtrs c s act with
    | some (_, _, outPtr) => [(outPtr, bufBytes)]
    | none => []

/-- The ranges of memory an action reads. -/
def readRanges (c : Config) (s : State) (act : HostAction) : List (Nat × Nat) :=
  match act with
  | .write _ _ => []
  | .copy dst src => if inSpace c src bufBytes && inSpace c dst bufBytes then [(src, bufBytes)] else []
  | .map _ _ _ => []
  | .call _ =>
    match accessPtrs c s act with
    | some (aPtr, bPtr, _) => [(aPtr, bufBytes), (bPtr, bufBytes)]
    | none => []

/-- A range none of whose bytes is among the 32 at p; an empty range has none. -/
def clearOf (p : Nat) (r : Nat × Nat) : Bool :=
  decide (r.2 = 0) || decide (r.1 + r.2 ≤ p) || decide (p + bufBytes ≤ r.1)

/-- What another agent may do while a call with these pointers is in progress (R44, 70_reset R113, R114): write no
byte of the a or b buffer, and read or write no byte of the out buffer. -/
def mayOverlapInTime (c : Config) (s : State) (ptrs : Nat × Nat × Nat) (other : HostAction) : Bool :=
  (writeRanges c s other).all (fun r => clearOf ptrs.1 r && clearOf ptrs.2.1 r && clearOf ptrs.2.2 r) &&
    (readRanges c s other).all (fun r => clearOf ptrs.2.2 r)

/-- Two agents' next actions may be in progress at once. -/
def exclusivePair (c : Config) (s : State) (j k : Nat) : Bool :=
  match s.nextAction j, s.nextAction k with
  | some mine, some other =>
    match accessPtrs c s mine with
    | some ptrs => mayOverlapInTime c s ptrs other
    | none => true
  | some _, none => true
  | none, _ => true

/-- The premise BuffersExclusive (R44) in a state: no agent's next action accesses the buffers of another agent's next
call, where that call accesses them. A claim about several agents takes it as a premise in every state of the run
(log 17). -/
def BuffersExclusive (c : Config) (s : State) : Prop :=
  ∀ j k, j < s.agents.length → k < s.agents.length → j ≠ k → exclusivePair c s j k = true

/-! ## Programs and the end of a run -/

/-- All the actions of a script in order, each REPEAT n { body } written out as n bodies (30_encoding R59). -/
def Script.actions : Script → List HostAction
  | .done => []
  | .line act rest => act :: rest.actions
  | .rep n body rest => (List.replicate n body.actions).flatten ++ rest.actions

/-- A successful end (R118): every agent has finished its program, every call returned, and no abort is recorded. (A
refusal ends a run in no state.) -/
def SuccessfulEnd (s : State) : Bool :=
  decide (s.abort = none) && s.agents.all fun ag => !ag.lost && decide (ag.program.next = none)

/-! ## The invariant -/

/-- Every listed address is below a bound. -/
def listedBelow {α : Type} (n : Nat) (l : List (Nat × α)) : Bool := l.all fun e => decide (e.1 < n)

/-- What every step keeps: Mem and Perm are in canonical form and list addresses of the address space alone (R25), and
the latch R holds a canonical value whenever it holds one (R20, 41_multiplier R72). -/
structure Inv (c : Config) (s : State) : Prop where
  mem_wf : s.mem.wf = true
  perm_wf : s.perm.wf = true
  mem_below : listedBelow (2 ^ c.addrW) s.mem = true
  perm_below : listedBelow (2 ^ c.addrW) s.perm = true
  r_canonical : ∀ r, s.latches.r = some r → r.toNat < c.modulus

end Sys2Proof.Machine
end

