-- ==== Sys2Proof/Certificates/Slice0/Obligations.lean ====
section
/-! DEFINITION. The statements for the provers. Each docstring names the rule of spec/ it formalises. `Config.hardware`
is the machine's own configuration, whose MODULUS and ADDR_W are open; a statement over every `c` holds of every
configuration the spec allows (spec 10_state R24). -/

open Sys2Proof Sys2Proof.Machine

/-! ## Reset and the invariant -/

/-- 10_state R26, 70_reset R107: right after reset no latch holds a value, no abort is recorded, every agent's call
state is IDLE, and with nothing placed a step does nothing. (Empty Mem, Perm and programs are the model's choice,
logs 9 to 12.) -/
def Obligations.ResetLeavesMulmodIdle : Prop :=
  State.reset.latches = Latches.empty ∧ State.reset.abort = none ∧ State.reset.callState = .IDLE ∧
    step State.reset = .next State.reset

/-- 70_reset R108: a reset gives the latches no value, and leaves Mem and Perm as they are. Stated of the step that
the event `reset` is, from any state with no abort recorded. -/
def Obligations.PlatformResetKeepsCallerMemory : Prop :=
  ∀ (s : State) (rest : List Event), s.abort = none → s.schedule = .reset :: rest →
    ∃ t, step s = .next t ∧ t.latches = Latches.empty ∧ t.abort = none ∧ t.callState = .IDLE ∧
      (∀ x, t.mem.byteAt x = s.mem.byteAt x) ∧ (∀ x, t.perm.at x = s.perm.at x) ∧ t.agents = s.agents

/-- 70_reset R107, 10_state R19, R21: what the latches hold before a call matters to no call. -/
def Obligations.CallIgnoresEarlierLatches : Prop :=
  ∀ (s : State) (l : Latches) (a b o : Nat),
    exec (.multiply a b o) { s with latches := l } = exec (.multiply a b o) s

/-- The invariant holds right after reset. -/
def Obligations.ResetMeetsInvariant : Prop := Inv Config.hardware State.reset

/-- Every step keeps the invariant: Mem and Perm canonical and inside the address space (10_state R25, 20_memory R28),
and the latch R below the modulus (10_state R20, 41_multiplier R72). -/
def Obligations.StepKeepsInvariant : Prop :=
  ∀ s t : State, Inv Config.hardware s → step s = .next t → Inv Config.hardware t

/-! ## The step -/

/-- A step runs the decoded call: when the schedule gives the turn to an agent whose next line is a call whose
descriptor decodes to i, the step is exec of i in the state in which the event is consumed and the agent's program and
script index have moved past the line (42_ffi R86, 30_encoding R59). That a step consumes one event of a list, and that
the index grows by one for each action, are the model's choices (logs 12 and 13). -/
def Obligations.StepRunsDecodedCall : Prop :=
  ∀ (s : State) (k : Nat) (rest : List Event) (ag : Agent) (d : List Byte) (left : Script) (i : Instr),
    s.abort = none → s.schedule = .agent k :: rest → s.agents[k]? = some ag → ag.lost = false →
    ag.program.next = some (.call d, left) → decodeDescriptor Config.hardware d = .ok i →
    wellFormed Config.hardware i = true ∧
    step s = exec i { s with
      schedule := rest
      agents := s.agents.set k { ag with program := left, index := ag.index + 1 } }

/-- A step runs a stage given to the bench (the model's own port, log 8; 30_encoding R53 asks that each stage can be
run on its own). -/
def Obligations.StepRunsBenchStage : Prop :=
  ∀ (s : State) (rest : List Event) (stage : List Byte) (i : Instr),
    s.abort = none → s.schedule = .bench stage :: rest → decodeBench Config.hardware stage = .ok i →
    step s = exec i { s with schedule := rest }

/-- 30_encoding R55: a caller cannot run an internal stage, nor a reserved descriptor: the step is refused by name. -/
def Obligations.CallerCannotRunAStage : Prop :=
  ∀ (s : State) (k : Nat) (rest : List Event) (ag : Agent) (d : List Byte) (left : Script),
    s.abort = none → s.schedule = .agent k :: rest → s.agents[k]? = some ag → ag.lost = false →
    ag.program.next = some (.call d, left) → d.length = 32 →
    ((1 ≤ descWord 8 0 d ∧ descWord 8 0 d ≤ 3 →
        step s = .refused (.internalStage (descWord 8 0 d))) ∧
      (4 ≤ descWord 8 0 d → step s = .refused (.reserved (descWord 8 0 d))))

/-- 10_state R23, 60_exceptions R93: an abort is sticky. From a state with an abort recorded no step is taken, whatever
the agents, the schedule and the memory, and the run never ends successfully. That each such step is the fault `aborted`,
after a reset event too, is the model's form of the end (log 5). -/
def Obligations.AbortIsSticky : Prop :=
  ∀ (s : State) (cause : Abort), s.abort = some cause →
    (∀ n, Host.Core.run Sys2Proof.core (n + 1) s = .fault (.aborted cause)) ∧ SuccessfulEnd s = false ∧
      s.callState = .ABORTED

/-! ## Encoding -/

/-- Decode and encode agree for every well-formed instruction, at every value of every operand, in every configuration
the spec allows (30_encoding R54). The operand words of a stage are the model's choice (log 8). -/
def Obligations.DecodeOfEncodeIsIdentity : Prop :=
  ∀ (c : Config) (i : Instr), c.Admissible → wellFormed c i = true →
    decodeOperation c (encode c i) = .ok i ∧
      (∀ a b o, i = .multiply a b o → decodeDescriptor c (encode c i) = .ok i)

/-- The other direction, where a pointer fills its word: a descriptor that decodes is the encoding of what it decodes
to, so each word has one meaning (30_encoding R54; logs 8 and 18). -/
def Obligations.EncodeOfDecodeIsIdentity : Prop :=
  ∀ (c : Config) (bytes : List Byte) (i : Instr), c.addrW = 8 * c.descWordBytes →
    decodeOperation c bytes = .ok i → encode c i = bytes

/-- 30_encoding R60: the decoder of descriptors is total on 32 bytes, with these three outcomes; it never inspects a
pointer. That a pointer is its word modulo 2^ADDR_W is the model's reading (log 18). -/
def Obligations.DescriptorDecoderIsTotal : Prop :=
  ∀ d : List Byte, d.length = 32 →
    (descWord 8 0 d = 0 → decodeDescriptor Config.hardware d = .ok (.multiply
        (descWord 8 1 d % 2 ^ Config.hardware.addrW) (descWord 8 2 d % 2 ^ Config.hardware.addrW)
        (descWord 8 3 d % 2 ^ Config.hardware.addrW))) ∧
    (1 ≤ descWord 8 0 d ∧ descWord 8 0 d ≤ 3 →
      decodeDescriptor Config.hardware d = .error (.internalStage (descWord 8 0 d))) ∧
    (4 ≤ descWord 8 0 d → decodeDescriptor Config.hardware d = .error (.reserved (descWord 8 0 d)))

/-- The words of the opcode table and the call descriptors of 95_test_vectors L3-1 and L3-2, written out, decode to
what they stand for. The words 1 to 3 are the bench's stage words, and that the all-zero operand word w1 makes word 1 the
side a of DECODE is the model's choice (log 8). -/
def Obligations.KnownDescriptorsDecode : Prop :=
  decodeTableWord 64 0 = some (.multiply 0 0 0) ∧ decodeTableWord 64 1 = some (.decode .a) ∧
    decodeTableWord 64 2 = some .encode ∧ decodeTableWord 64 3 = some .fmul ∧ decodeTableWord 64 4 = none ∧
    (∀ c : Config, c.addrW = 64 → c.descWordBytes = 8 →
      decodeDescriptor c [0x00, 0x00, 0x00, 0x00, 0x00, 0x00, 0x00, 0x00, 0x00, 0x10, 0x00, 0x00, 0x00, 0x00, 0x00, 0x00,
        0x00, 0x10, 0x00, 0x00, 0x00, 0x00, 0x00, 0x00, 0x00, 0x10, 0x00, 0x00, 0x00, 0x00, 0x00, 0x00]
        = .ok (.multiply 0x1000 0x1000 0x1000) ∧
      decodeDescriptor c [0x00, 0x00, 0x00, 0x00, 0x00, 0x00, 0x00, 0x00, 0x00, 0x20, 0x00, 0x00, 0x00, 0x00, 0x00, 0x00,
        0x20, 0x20, 0x00, 0x00, 0x00, 0x00, 0x00, 0x00, 0x00, 0x10, 0x00, 0x00, 0x00, 0x00, 0x00, 0x00]
        = .ok (.multiply 0x2000 0x2020 0x1000))

/-! ## The codec -/

/-- 30_encoding R49: the value of a buffer is its plain little-endian integer, by bytes and by limbs, below 2^256, and
bit i of it is bit (i mod 8) of byte i div 8. -/
def Obligations.BufferValueIsLittleEndian : Prop :=
  ∀ buf : Buf,
    decodeBuf buf = ∑ i ∈ Finset.range 32, (buf.get i).toNat * 2 ^ (8 * i) ∧
    decodeBuf buf = ∑ k ∈ Finset.range 4, limbOf buf k * 2 ^ (64 * k) ∧
    decodeBuf buf < 2 ^ 256 ∧
    ∀ i < 256, (decodeBuf buf).testBit i = (buf.get (i / 8)).getLsbD (i % 8)

/-- 20_memory R30: the views of the 32 bytes at an address agree. Limb k is the sum of bytes 8k to 8k+7, limb 0 at the
lowest address, and the 256-bit value is the sum of the limbs and of the bytes. -/
def Obligations.BufferViewsAgree : Prop :=
  ∀ (s : State) (p : Nat),
    (∀ k < 4, limbOf (s.bufAt p) k = ∑ j ∈ Finset.range 8, (s.mem.byteAt (p + (8 * k + j))).toNat * 2 ^ (8 * j)) ∧
    decodeBuf (s.bufAt p) = ∑ k ∈ Finset.range 4, limbOf (s.bufAt p) k * 2 ^ (64 * k) ∧
    decodeBuf (s.bufAt p) = ∑ i ∈ Finset.range 32, (s.mem.byteAt (p + i)).toNat * 2 ^ (8 * i)

/-- 40_codec R65: DECODE(ENCODE(x)) = x for every x < 2^256. -/
def Obligations.DecodeAfterEncode : Prop := ∀ x < 2 ^ 256, decodeBuf (encodeVal x) = x

/-- 40_codec R66: ENCODE(DECODE(buf)) = buf for every buffer, canonical or not; the two are inverse bijections between
the buffers and the integers below 2^256. -/
def Obligations.CodecIsBijective : Prop :=
  (∀ buf : Buf, encodeVal (decodeBuf buf) = buf) ∧ (∀ buf : Buf, decodeBuf buf < 2 ^ 256) ∧
    ∀ x < 2 ^ 256, decodeBuf (encodeVal x) = x ∧ ∀ buf : Buf, decodeBuf buf = x → buf = encodeVal x

/-- 40_codec R61: DECODE completes whenever its buffer latch holds a value, and its operand latch then holds the
buffer's little-endian integer, unreduced, whatever P is. -/
def Obligations.DecodeLatchesLittleEndianValue : Prop :=
  ∀ (s : State) (side : Side) (buf : Buf), s.latches.inputBuf side = some buf →
    ∃ v : U256, v.toNat = ∑ i ∈ Finset.range 32, (buf.get i).toNat * 2 ^ (8 * i) ∧
      exec (.decode side) s = .next { s with latches := s.latches.setOperand side v }

/-- 40_codec R63: ENCODE completes whenever R holds a value, and OBUF then holds BYTES(R): byte i is bits 8i+7..8i. -/
def Obligations.EncodeLatchesBytes : Prop :=
  ∀ (s : State) (r : U256), s.latches.r = some r →
    ∃ buf : Buf, (∀ i < 32, (buf.get i).toNat = r.toNat / 2 ^ (8 * i) % 256) ∧
      exec .encode s = .next { s with latches := { s.latches with obuf := some buf } }

/-- 10_state R21, 93_implementation_defined U11: a stage whose operand latch holds no value faults, and reads
nothing. -/
def Obligations.StageFaultsOnEmptyLatch : Prop :=
  ∀ s : State,
    (s.latches.abuf = none → exec (.decode .a) s = .fault (.emptyLatch .ABUF)) ∧
    (s.latches.bbuf = none → exec (.decode .b) s = .fault (.emptyLatch .BBUF)) ∧
    (s.latches.r = none → exec .encode s = .fault (.emptyLatch .R)) ∧
    (s.latches.a = none → exec .fmul s = .fault (.emptyLatch .A)) ∧
    (s.latches.a ≠ none → s.latches.b = none → exec .fmul s = .fault (.emptyLatch .B))

/-- The frame of the three stages (40_codec R67, 41_multiplier R75): when one answers a next state, no byte of memory, no
permission, no abort record, no agent, no schedule and no latch but its result latch has changed. -/
def Obligations.StageFrame : Prop :=
  ∀ (i : Instr) (s t : State), (∀ a b o, i ≠ .multiply a b o) → exec i s = .next t →
    (∀ x, t.mem.byteAt x = s.mem.byteAt x) ∧ (∀ x, t.perm.at x = s.perm.at x) ∧ t.abort = s.abort ∧
      t.agents = s.agents ∧ t.schedule = s.schedule ∧ t.draws = s.draws ∧
      t.latches.abuf = s.latches.abuf ∧ t.latches.bbuf = s.latches.bbuf ∧
      (i ≠ .decode .a → t.latches.a = s.latches.a) ∧ (i ≠ .decode .b → t.latches.b = s.latches.b) ∧
      (i ≠ .fmul → t.latches.r = s.latches.r) ∧ (i ≠ .encode → t.latches.obuf = s.latches.obuf)

/-! ## The multiplier -/

/-- 41_multiplier R70, with NONCANON_MODE = REDUCE: FMUL completes whenever A and B hold values, canonical or not, and R
then holds the product modulo P. -/
def Obligations.FmulLatchesProduct : Prop :=
  ∀ (s : State) (a b : U256), s.latches.a = some a → s.latches.b = some b →
    ∃ r : U256, r.toNat = a.toNat * b.toNat % Config.hardware.modulus ∧
      exec .fmul s = .next { s with latches := { s.latches with r := some r } }

/-- 41_multiplier R71: the product is formed exactly, at 512 bits, and the result is its exact remainder, the only value
below P that differs from it by a multiple of P. -/
def Obligations.FmulIsExactRemainder : Prop :=
  ∀ (c : Config) (a b n : Nat), Config.IsModulus c.modulus → a < 2 ^ 256 → b < 2 ^ 256 →
    (c.noncanonMode = .REDUCE ∨ a < c.modulus ∧ b < c.modulus) →
    a * b < 2 ^ 512 ∧ fmul c a b n < c.modulus ∧ (∃ q, a * b = q * c.modulus + fmul c a b n) ∧
      ∀ r < c.modulus, (∃ q, a * b = q * c.modulus + r) → r = fmul c a b n

/-- 41_multiplier R72: the result is canonical in both branches and both modes. -/
def Obligations.FmulResultIsCanonical : Prop :=
  ∀ (c : Config) (a b n : Nat), Config.IsModulus c.modulus → fmul c a b n < c.modulus

/-- 41_multiplier R73: the laws of the field for canonical operands, and what remains of them under REDUCE for every
operand. (That no law holds under ANY is not stated.) -/
def Obligations.FmulFieldLaws : Prop :=
  ∀ (c : Config) (n m : Nat), Config.IsModulus c.modulus →
    (∀ a b d, a < c.modulus → b < c.modulus → d < c.modulus →
      fmul c a b n = fmul c b a m ∧ fmul c (fmul c a b n) d m = fmul c a (fmul c b d n) m ∧
      fmul c a 1 n = a ∧ fmul c a 0 n = 0 ∧ fmul c (c.modulus - 1) (c.modulus - 1) n = 1 ∧
      (fmul c a b n = 0 → a = 0 ∨ b = 0)) ∧
    (c.noncanonMode = .REDUCE → ∀ a b d,
      fmul c a b n = fmul c b a m ∧ fmul c (fmul c a b n) d m = fmul c a (fmul c b d n) m ∧
      fmul c a 1 n = a % c.modulus ∧ fmul c a 0 n = 0)

/-- 41_multiplier R74: the corner cases (a) to (g). In (g) the result is the draw, any value below P. -/
def Obligations.FmulCornerCases : Prop :=
  ∀ (c : Config) (n a b : Nat), Config.IsModulus c.modulus →
    (a < c.modulus → b < c.modulus →
      fmul c 0 b n = 0 ∧ fmul c a 0 n = 0 ∧ fmul c 1 b n = b ∧
      fmul c (c.modulus - 1) (c.modulus - 1) n = 1 ∧
      fmul c (c.modulus - 1) b n = (c.modulus - b) % c.modulus ∧
      (b ≠ 0 → fmul c (c.modulus - 1) b n = c.modulus - b) ∧ fmul c a a n = a * a % c.modulus) ∧
    (c.noncanonMode = .REDUCE → fmul c c.modulus b n = 0 ∧
      fmul c (2 ^ 256 - 1) 1 n = (2 ^ 256 - 1) % c.modulus) ∧
    (c.noncanonMode = .ANY → (c.modulus ≤ a ∨ c.modulus ≤ b) →
      fmul c a b n = anyDraw c n ∧ anyDraw c n < c.modulus)

/-! ## The boundary: a call that completes -/

/-- 42_ffi R78: a call whose three pointers are admitted completes. It writes ENCODE of the product modulo P of the two
input buffers, canonical or not, to the 32 bytes of the out buffer, records no abort, and leaves no latch. -/
def Obligations.MultiplyWritesProduct : Prop :=
  ∀ (s : State) (a b o : Nat), CallAdmitted Config.hardware s a b o →
    exec (.multiply a b o) s = .next { s with
      mem := s.mem.putBytes o
        (encodeVal (decodeBuf (s.bufAt a) * decodeBuf (s.bufAt b) % Config.hardware.modulus)).bytes
      latches := Latches.empty }

/-- 42_ffi R82, 40_codec R64, 30_encoding R50: every one of the 32 output bytes is written, and the out buffer then
decodes to the product modulo P, a canonical value. -/
def Obligations.OutputBufferHoldsCanonicalProduct : Prop :=
  ∀ (s : State) (a b o : Nat), s.mem.wf = true → CallAdmitted Config.hardware s a b o →
    ∃ t, exec (.multiply a b o) s = .next t ∧
      decodeBuf (t.bufAt o) = decodeBuf (s.bufAt a) * decodeBuf (s.bufAt b) % Config.hardware.modulus ∧
      decodeBuf (t.bufAt o) < Config.hardware.modulus ∧
      ∀ i < 32, (t.mem.byteAt (o + i)).toNat =
        decodeBuf (s.bufAt a) * decodeBuf (s.bufAt b) % Config.hardware.modulus / 2 ^ (8 * i) % 256

/-- The frame of a call (42_ffi R82, 10_state R25, R21): the stored address is out_ptr; every byte outside
out_ptr..out_ptr+31 reads as before, and every byte at all when validation fails; permissions, agents, schedule and draw
counter are unchanged, no latch is left, and the abort record changes only by this call's own abort. -/
def Obligations.MultiplyFrame : Prop :=
  ∀ (s t : State) (a b o : Nat), exec (.multiply a b o) s = .next t →
    (∀ x, (x < o ∨ o + 32 ≤ x) → t.mem.byteAt x = s.mem.byteAt x) ∧
      (¬CallAdmitted Config.hardware s a b o → ∀ x, t.mem.byteAt x = s.mem.byteAt x) ∧
      (∀ x, t.perm.at x = s.perm.at x) ∧ t.agents = s.agents ∧ t.schedule = s.schedule ∧ t.draws = s.draws ∧
      t.latches = Latches.empty ∧
      (CallAdmitted Config.hardware s a b o → t.abort = s.abort) ∧
      (¬CallAdmitted Config.hardware s a b o → ∃ cause, t.abort = some cause)

/-- 10_state R25: over all four instructions, Perm is never written and the only bytes that can change are the 32 of the
output buffer of a call that passed validation. -/
def Obligations.OnlyTheOutputBufferIsWritten : Prop :=
  ∀ (i : Instr) (s t : State), exec i s = .next t →
    t.perm = s.perm ∧
      ∀ x, t.mem.byteAt x ≠ s.mem.byteAt x →
        ∃ a b o, i = .multiply a b o ∧ CallAdmitted Config.hardware s a b o ∧ o ≤ x ∧ x < o + 32

/-- 42_ffi R89, R86: every call ends, by return or by abort, whatever the state: it is never stuck, never faults
otherwise, and on this hardware is never refused. -/
def Obligations.EveryCallEnds : Prop :=
  ∀ (s : State) (a b o : Nat), ∃ t, exec (.multiply a b o) s = .next t ∧
    (t.abort = s.abort ∨ ∃ cause, validate Config.hardware s a b o = some cause ∧ t = raiseAbort cause s)

/-- 10_state R19: two calls with the same input bytes write the same output bytes, whatever else the two states hold and
wherever the buffers lie; and nothing MULMOD holds survives either call. -/
def Obligations.OutputDependsOnInputBytesAlone : Prop :=
  ∀ (s s' t t' : State) (a b o a' b' o' : Nat), s.mem.wf = true → s'.mem.wf = true →
    CallAdmitted Config.hardware s a b o → CallAdmitted Config.hardware s' a' b' o' →
    (∀ i < 32, s.mem.byteAt (a + i) = s'.mem.byteAt (a' + i)) →
    (∀ i < 32, s.mem.byteAt (b + i) = s'.mem.byteAt (b' + i)) →
    exec (.multiply a b o) s = .next t → exec (.multiply a' b' o') s' = .next t' →
    (∀ i < 32, t.mem.byteAt (o + i) = t'.mem.byteAt (o' + i)) ∧
      t.latches = Latches.empty ∧ t'.latches = Latches.empty

/-- 20_memory R39: a call whose out buffer overlaps neither input leaves both inputs as they were, and repeating it
changes nothing. -/
def Obligations.RepeatedCallChangesNothing : Prop :=
  ∀ (s t : State) (a b o : Nat), s.mem.wf = true → CallAdmitted Config.hardware s a b o →
    outOverlaps a b o = false → exec (.multiply a b o) s = .next t →
    t.bufAt a = s.bufAt a ∧ t.bufAt b = s.bufAt b ∧ exec (.multiply a b o) t = .next t

/-- 42_ffi R83: the a and b buffers may overlap in any way. Under DEFINED the out buffer may overlap an input too: the
result is the product of the input bytes as they were at the call, and the overlapped bytes then hold the output bytes.
Under REFUSE a call whose out buffer overlaps an input is refused, which is no abort, and any other is not. -/
def Obligations.OverlappingBuffers : Prop :=
  ∀ (c : Config) (s : State) (a b o : Nat), Config.IsModulus c.modulus → s.mem.wf = true → CallAdmitted c s a b o →
    (c.aliasOutMode = .REFUSE → outOverlaps a b o = true → multiply c a b o s = .refused (.aliasOut o)) ∧
    (c.aliasOutMode = .DEFINED ∨ outOverlaps a b o = false →
      ∃ t, multiply c a b o s = .next t ∧ t.abort = s.abort ∧
        decodeBuf (t.bufAt o) = fmul c (decodeBuf (s.bufAt a)) (decodeBuf (s.bufAt b)) s.draws ∧
        ∀ i < 32, t.mem.byteAt (o + i) =
          (encodeVal (fmul c (decodeBuf (s.bufAt a)) (decodeBuf (s.bufAt b)) s.draws)).get i)

/-- 70_reset R115, 20_memory R42: a second call that reads the first call's out buffer sees the product. -/
def Obligations.ChainedCallSeesProduct : Prop :=
  ∀ (s t u : State) (a b o d e : Nat), s.mem.wf = true → CallAdmitted Config.hardware s a b o →
    exec (.multiply a b o) s = .next t → CallAdmitted Config.hardware t o d e →
    exec (.multiply o d e) t = .next u →
    decodeBuf (u.bufAt e) = decodeBuf (s.bufAt a) * decodeBuf (s.bufAt b) * decodeBuf (t.bufAt d) %
      Config.hardware.modulus

/-- 42_ffi R90: the source's end-to-end example, 2 × 3 = 6, for any P ≥ 7, any contents of the rest of memory and any
earlier contents of the out buffer. -/
def Obligations.EndToEndExample : Prop :=
  ∀ (c : Config) (s : State), Config.IsModulus c.modulus → c.addrW = 64 → c.align = 8 → s.mem.wf = true →
    (∀ x, 0x1000 ≤ x → x < 0x1040 → s.perm.at x = .R) → (∀ x, 0x1040 ≤ x → x < 0x1060 → s.perm.at x = .RW) →
    s.mem.bytesAt 0x1000 32 = 0x02 :: List.replicate 31 0 → s.mem.bytesAt 0x1020 32 = 0x03 :: List.replicate 31 0 →
    decodeBuf (s.bufAt 0x1000) = 2 ∧ decodeBuf (s.bufAt 0x1020) = 3 ∧
    ∃ t, multiply c 0x1000 0x1020 0x1040 s = .next t ∧ t.abort = s.abort ∧
      t.mem.bytesAt 0x1040 32 = 0x06 :: List.replicate 31 0 ∧
      ∀ x, (x < 0x1040 ∨ 0x1060 ≤ x) → t.mem.byteAt x = s.mem.byteAt x

/-! ## The boundary: a call that aborts -/

/-- 42_ffi R87: the nine exceptions of MULTIPLY and when each is raised, and that no other call raises one. Each entry
is the abort of 60_exceptions R92 with the failing pointer. -/
def Obligations.MultiplyAborts : Prop :=
  ∀ (s : State) (a b o : Nat),
    let c := Config.hardware
    (a = 0 → exec (.multiply a b o) s = .next (raiseAbort (.nullA a) s)) ∧
    (a ≠ 0 → a % c.align ≠ 0 → exec (.multiply a b o) s = .next (raiseAbort (.misalignedA a) s)) ∧
    (a ≠ 0 → a % c.align = 0 → Unreachable c s .READ a →
      exec (.multiply a b o) s = .next (raiseAbort (.unreadableA a) s)) ∧
    (Admitted c s .READ a → b = 0 → exec (.multiply a b o) s = .next (raiseAbort (.nullB b) s)) ∧
    (Admitted c s .READ a → b ≠ 0 → b % c.align ≠ 0 →
      exec (.multiply a b o) s = .next (raiseAbort (.misalignedB b) s)) ∧
    (Admitted c s .READ a → b ≠ 0 → b % c.align = 0 → Unreachable c s .READ b →
      exec (.multiply a b o) s = .next (raiseAbort (.unreadableB b) s)) ∧
    (Admitted c s .READ a → Admitted c s .READ b → o = 0 →
      exec (.multiply a b o) s = .next (raiseAbort (.nullOut o) s)) ∧
    (Admitted c s .READ a → Admitted c s .READ b → o ≠ 0 → o % c.align ≠ 0 →
      exec (.multiply a b o) s = .next (raiseAbort (.misalignedOut o) s)) ∧
    (Admitted c s .READ a → Admitted c s .READ b → o ≠ 0 → o % c.align = 0 → Unreachable c s .WRITE o →
      exec (.multiply a b o) s = .next (raiseAbort (.unwritableOut o) s)) ∧
    (CallAdmitted c s a b o → ∃ t, exec (.multiply a b o) s = .next t ∧ t.abort = s.abort)

/-- 60_exceptions R95, over the table of R92: of all the causes that hold of a call, each read on its own, the smallest
code is reported, with its pointer; and a call of which none holds records no abort. In every configuration. -/
def Obligations.AbortReportsSmallestFailingCode : Prop :=
  ∀ (c : Config) (s : State) (a b o : Nat),
    (∀ code, causeHolds c s a b o code → (∀ n < code, ¬causeHolds c s a b o n) →
      ∃ cause, cause.code = code ∧ cause.ptr = causePtr a b o code ∧
        multiply c a b o s = .next (raiseAbort cause s)) ∧
    ((∀ code, ¬causeHolds c s a b o code) → ∀ t, multiply c a b o s = .next t → t.abort = s.abort)

/-- 60_exceptions R93: the effect of an abort. The abort is recorded, no byte of memory has been written, no later step
is taken by any agent whatever the programs and the schedule, and the end is no successful one.
That every later step is the fault `aborted`, after any event (a reset too), is the model's form of the end (log 5). -/
def Obligations.AbortEffect : Prop :=
  ∀ (s : State) (a b o : Nat) (cause : Abort), validate Config.hardware s a b o = some cause →
    ∃ t, exec (.multiply a b o) s = .next t ∧ t.abort = some cause ∧
      (∀ x, t.mem.byteAt x = s.mem.byteAt x) ∧
      (∀ (agents : List Agent) (schedule : List Event),
        step { t with agents := agents, schedule := schedule } = .fault (.aborted cause)) ∧
      SuccessfulEnd t = false

/-- 42_ffi R80: validation comes before any access. Which abort a call takes, or that it takes none, does not depend on
any byte of memory, and an aborted call leaves every byte it found. -/
def Obligations.ValidationReadsNoMemory : Prop :=
  ∀ (s : State) (m : Memory) (a b o : Nat),
    (∀ cause, validate Config.hardware s a b o = some cause →
      exec (.multiply a b o) { s with mem := m } = .next (raiseAbort cause { s with mem := m })) ∧
    (CallAdmitted Config.hardware s a b o →
      ∃ t, exec (.multiply a b o) { s with mem := m } = .next t ∧ t.abort = s.abort)

/-- 60_exceptions R91: no instruction but MULTIPLY records an abort, and it only when validation fails. -/
def Obligations.OnlyValidationAborts : Prop :=
  ∀ (i : Instr) (s t : State), exec i s = .next t → t.abort ≠ s.abort →
    ∃ a b o cause, i = .multiply a b o ∧ validate Config.hardware s a b o = some cause ∧ t.abort = some cause

/-- 20_memory R37: a buffer that would pass the top of the address space is accessible for no access and never wraps:
it aborts as unreadable or unwritable. Of the pointers, those above 2^ADDR_W − 32 are the ones out of range. -/
def Obligations.BufferNeverWraps : Prop :=
  ∀ (s : State) (p q r : Nat),
    let c := Config.hardware
    (p + 31 > 2 ^ c.addrW - 1 → ∀ k, accessible c s k p = false) ∧
    (inRange c p = false ↔ p > 2 ^ c.addrW - 32) ∧
    (p + 31 > 2 ^ c.addrW - 1 → p % c.align = 0 →
      exec (.multiply p q r) s = .next (raiseAbort (.unreadableA p) s) ∧
      (Admitted c s .READ q → exec (.multiply q p r) s = .next (raiseAbort (.unreadableB p) s)) ∧
      (Admitted c s .READ q → Admitted c s .READ r →
        exec (.multiply q r p) s = .next (raiseAbort (.unwritableOut p) s)))

/-- 20_memory R35: with ALIGN = 1 every pointer passes the alignment check. -/
def Obligations.AlignOneRemovesTheCheck : Prop :=
  ∀ (c : Config) (s : State) (a b o p : Nat), c.align = 1 →
    validate c s a b o ≠ some (.misalignedA p) ∧ validate c s a b o ≠ some (.misalignedB p) ∧
      validate c s a b o ≠ some (.misalignedOut p)

/-! ## Accesses and permissions -/

/-- 20_memory R31: an address is readable when Perm is R or RW and writable when it is RW, and address 0 is neither. -/
def Obligations.PermissionRule : Prop :=
  ∀ (c : Config) (s : State) (x : Nat), x < 2 ^ c.addrW →
    (s.allows c .READ x = true ↔ x ≠ 0 ∧ (s.perm.at x = .R ∨ s.perm.at x = .RW)) ∧
      (s.allows c .WRITE x = true ↔ x ≠ 0 ∧ s.perm.at x = .RW)

/-- 20_memory R33, R32: MemWrite completes exactly at a writable address, sets that byte and changes nothing else, and
the next MemRead there returns it. That MemWrite answers the fault accessDenied elsewhere is the model's reading: R33
only requires a writable address (log 19). -/
def Obligations.MemWriteThenMemRead : Prop :=
  ∀ (c : Config) (s : State) (x : Nat) (v : Byte), s.mem.wf = true →
    (s.allows c .WRITE x = true →
      ∃ t, memWrite c s x v = .ok t ∧ memRead c t x = .ok v ∧ (∀ y, y ≠ x → t.mem.byteAt y = s.mem.byteAt y) ∧
        t.mem.wf = true ∧ t = { s with mem := t.mem }) ∧
    (s.allows c .WRITE x = false → memWrite c s x v = .error (.accessDenied x))

/-- 20_memory R34: whatever Perm says of address 0, it is neither read nor written, and a null pointer aborts the
call. That MemRead and MemWrite at 0 answer the fault accessDenied is the model's reading: R31 to R34 give no fault
(log 19). -/
def Obligations.NullIsNeverAccessed : Prop :=
  ∀ (s : State) (p q : Nat) (v : Byte),
    memRead Config.hardware s 0 = .error (.accessDenied 0) ∧
    memWrite Config.hardware s 0 v = .error (.accessDenied 0) ∧
    (∃ cause, exec (.multiply 0 p q) s = .next (raiseAbort cause s)) ∧
    (∃ cause, exec (.multiply p 0 q) s = .next (raiseAbort cause s)) ∧
    (∃ cause, exec (.multiply p q 0) s = .next (raiseAbort cause s))

/-! ## The host, resets during a call, and several callers -/

/-- 30_encoding R59: the next action of a program follows the list of its actions with each REPEAT n written out as n
bodies. The unrolling is the model's (log 13). -/
def Obligations.RepeatRunsItsBodyNTimes : Prop :=
  ∀ p : Script, (p.next = none ↔ p.actions = []) ∧
    ∀ act left, p.next = some (act, left) → p.actions = act :: left.actions

/-- 30_encoding R59, 95_test_vectors section 3: what a step of MAP, WRITE and COPY does, in the address space and whatever
Perm says; the latches, the abort record, the draw count and every other permission and byte are as before. That COPY
reads its 32 bytes before it writes any, which matters where the ranges overlap, is the model's choice, and that the lines
ignore Perm is its reading (log 14). -/
def Obligations.HostLinesSetMemAndPerm : Prop :=
  ∀ (s : State) (k : Nat) (rest : List Event) (ag : Agent) (act : HostAction) (left : Script),
    s.abort = none → s.schedule = .agent k :: rest → s.agents[k]? = some ag → ag.lost = false →
    ag.program.next = some (act, left) → s.mem.wf = true → s.perm.wf = true →
    (∀ x n perm, act = .map x n perm → x + n ≤ 2 ^ Config.hardware.addrW →
      ∃ t, step s = .next t ∧ t.mem = s.mem ∧ t.latches = s.latches ∧ t.abort = s.abort ∧ t.draws = s.draws ∧ (∀ i < n, t.perm.at (x + i) = perm) ∧
        ∀ y, (y < x ∨ x + n ≤ y) → t.perm.at y = s.perm.at y) ∧
    (∀ x bytes, act = .write x bytes → x + bytes.length ≤ 2 ^ Config.hardware.addrW →
      ∃ t, step s = .next t ∧ t.perm = s.perm ∧ t.latches = s.latches ∧ t.abort = s.abort ∧ t.draws = s.draws ∧
        (∀ i < bytes.length, t.mem.byteAt (x + i) = bytes.getD i 0) ∧
        ∀ y, (y < x ∨ x + bytes.length ≤ y) → t.mem.byteAt y = s.mem.byteAt y) ∧
    (∀ dst src, act = .copy dst src → dst + 32 ≤ 2 ^ Config.hardware.addrW → src + 32 ≤ 2 ^ Config.hardware.addrW →
      ∃ t, step s = .next t ∧ t.perm = s.perm ∧ t.latches = s.latches ∧ t.abort = s.abort ∧ t.draws = s.draws ∧
        (∀ i < 32, t.mem.byteAt (dst + i) = s.mem.byteAt (src + i)) ∧
        ∀ y, (y < dst ∨ dst + 32 ≤ y) → t.mem.byteAt y = s.mem.byteAt y)

/-- 70_reset R109: a reset during a call that passed validation. The call does not return: its agent takes no further
action. Each byte of its out buffer is its old or its new value, and every other byte, so each input byte outside the
out buffer, is unchanged. The event is the model's form (log 16). -/
def Obligations.ResetDuringCall : Prop :=
  ∀ (s : State) (k : Nat) (rest : List Event) (ag : Agent) (d : List Byte) (left : Script) (a b o : Nat),
    s.abort = none → s.mem.wf = true → s.schedule = .resetDuring k :: rest → s.agents[k]? = some ag →
    ag.lost = false → ag.program.next = some (.call d, left) →
    decodeDescriptor Config.hardware d = .ok (.multiply a b o) → CallAdmitted Config.hardware s a b o →
    ∃ t, step s = .next t ∧ t.takeAction k = none ∧ t.latches = Latches.empty ∧ t.abort = none ∧
      (∀ i < 32, t.mem.byteAt (o + i) = s.mem.byteAt (o + i) ∨
        t.mem.byteAt (o + i) =
          (encodeVal (decodeBuf (s.bufAt a) * decodeBuf (s.bufAt b) % Config.hardware.modulus)).get i) ∧
      (∀ x, (x < o ∨ o + 32 ≤ x) → t.mem.byteAt x = s.mem.byteAt x) ∧ t.perm = s.perm

/-- 60_exceptions R104: two agents whose next lines are calls that pass validation, on buffers that meet
BuffersExclusive (20_memory R44), reach the same state in either order of the schedule, with no abort. The premise, said of the agents'
next actions, and the one memory both act on are the model's choices (logs 17 and 23). -/
def Obligations.ExclusiveCallsCommute : Prop :=
  ∀ (s : State) (j k : Nat) (rest : List Event) (agj agk : Agent) (dj dk : List Byte) (lj lk : Script)
    (aj bj oj ak bk ok : Nat),
    j ≠ k → s.abort = none → s.mem.wf = true → BuffersExclusive Config.hardware s →
    s.agents[j]? = some agj → s.agents[k]? = some agk → agj.lost = false → agk.lost = false →
    agj.program.next = some (.call dj, lj) → agk.program.next = some (.call dk, lk) →
    decodeDescriptor Config.hardware dj = .ok (.multiply aj bj oj) →
    decodeDescriptor Config.hardware dk = .ok (.multiply ak bk ok) →
    CallAdmitted Config.hardware s aj bj oj → CallAdmitted Config.hardware s ak bk ok →
    ∃ t, t.abort = none ∧
      Host.Core.run Sys2Proof.core 2 { s with schedule := .agent j :: .agent k :: rest } = .next t ∧
      Host.Core.run Sys2Proof.core 2 { s with schedule := .agent k :: .agent j :: rest } = .next t
end

