-- ==== Sys2Proof/Laws/Memory.lean ====
section
/-! SUPPORT. The laws of the sparse maps, of caller memory and of the permission map: a read after a write, a write
leaves every other address alone, every write keeps the canonical form, and equal maps are equal lists. -/

namespace Sys2Proof.Machine

section sparse

variable {α : Type} [DecidableEq α] {d : α}

theorem sparseWf_mono {lo lo' : Nat} {l : List (Nat × α)} (h : sparseWfFrom d lo l = true) (hle : lo' ≤ lo) :
    sparseWfFrom d lo' l = true := by
  cases l with
  | nil => rfl
  | cons e rest =>
    simp only [sparseWfFrom, Bool.and_eq_true, decide_eq_true_eq] at h ⊢
    exact ⟨⟨le_trans hle h.1.1, h.1.2⟩, h.2⟩

/-- Below the lowest listed address there is the default. -/
theorem sparseGet_below {lo a : Nat} {l : List (Nat × α)} (h : sparseWfFrom d lo l = true) (ha : a < lo) :
    sparseGet d l a = d := by
  induction l generalizing lo with
  | nil => rfl
  | cons e rest ih =>
    simp only [sparseWfFrom, Bool.and_eq_true, decide_eq_true_eq] at h
    have hne : e.1 ≠ a := by omega
    simp only [sparseGet, hne, if_false]
    exact ih h.2 (by omega)

/-- A write leaves every other address alone. -/
theorem sparseGet_set_other {a b : Nat} (x : α) (l : List (Nat × α)) (h : b ≠ a) :
    sparseGet d (sparseSet d l a x) b = sparseGet d l b := by
  have h' : a ≠ b := Ne.symm h
  induction l with
  | nil => by_cases hx : x = d <;> simp [sparseSet, sparseGet, hx, h']
  | cons e rest ih =>
    obtain ⟨k, v⟩ := e
    by_cases h1 : a < k
    · by_cases hx : x = d <;> simp [sparseSet, sparseGet, h1, hx, h']
    · by_cases h2 : a = k
      · subst h2
        by_cases hx : x = d <;> simp [sparseSet, sparseGet, hx, h']
      · simp [sparseSet, sparseGet, h1, h2, ih]

/-- A read after a write to the same address gives the value written. -/
theorem sparseGet_set_same {lo a : Nat} (x : α) {l : List (Nat × α)} (h : sparseWfFrom d lo l = true) :
    sparseGet d (sparseSet d l a x) a = x := by
  induction l generalizing lo with
  | nil => by_cases hx : x = d <;> simp [sparseSet, sparseGet, hx]
  | cons e rest ih =>
    obtain ⟨k, v⟩ := e
    simp only [sparseWfFrom, Bool.and_eq_true, decide_eq_true_eq] at h
    by_cases h1 : a < k
    · by_cases hx : x = d
      · have hne : k ≠ a := by omega
        have hb := sparseGet_below (d := d) h.2 (show a < k + 1 by omega)
        simp [sparseSet, sparseGet, h1, hx, hne, hb]
      · simp [sparseSet, sparseGet, h1, hx]
    · by_cases h2 : a = k
      · subst h2
        by_cases hx : x = d
        · have hb := sparseGet_below (d := d) h.2 (show a < a + 1 by omega)
          simp [sparseSet, hx, hb]
        · simp [sparseSet, sparseGet, hx]
      · have hne : k ≠ a := Ne.symm h2
        simp [sparseSet, sparseGet, h1, h2, hne, ih h.2]

/-- A write keeps the canonical form. -/
theorem sparseWf_set {lo a : Nat} (x : α) {l : List (Nat × α)} (h : sparseWfFrom d lo l = true) (ha : lo ≤ a) :
    sparseWfFrom d lo (sparseSet d l a x) = true := by
  induction l generalizing lo with
  | nil => by_cases hx : x = d <;> simp [sparseSet, sparseWfFrom, hx, ha]
  | cons e rest ih =>
    obtain ⟨k, v⟩ := e
    have h0 := h
    simp only [sparseWfFrom, Bool.and_eq_true, decide_eq_true_eq] at h
    by_cases h1 : a < k
    · by_cases hx : x = d
      · simpa [sparseSet, h1, hx] using h0
      · have hk : a + 1 ≤ k := h1
        simp [sparseSet, sparseWfFrom, h1, hx, ha, hk, h.1.2, h.2]
    · by_cases h2 : a = k
      · subst h2
        by_cases hx : x = d
        · simpa [sparseSet, hx] using sparseWf_mono h.2 (by omega)
        · simp [sparseSet, sparseWfFrom, hx, ha, h.2]
      · simp [sparseSet, sparseWfFrom, h1, h2, h.1.1, h.1.2, ih h.2 (by omega)]

/-- Two canonical maps that read the same everywhere are the same list. -/
theorem sparse_ext {lo : Nat} {l m : List (Nat × α)} (hl : sparseWfFrom d lo l = true) (hm : sparseWfFrom d lo m = true)
    (h : ∀ a, sparseGet d l a = sparseGet d m a) : l = m := by
  induction l generalizing lo m with
  | nil =>
    cases m with
    | nil => rfl
    | cons e rest =>
      simp only [sparseWfFrom, Bool.and_eq_true, decide_eq_true_eq] at hm
      have := h e.1
      simp [sparseGet] at this
      exact absurd this.symm hm.1.2
  | cons e rest ih =>
    obtain ⟨k, v⟩ := e
    simp only [sparseWfFrom, Bool.and_eq_true, decide_eq_true_eq] at hl
    cases m with
    | nil =>
      have := h k
      simp [sparseGet] at this
      exact absurd this hl.1.2
    | cons e' rest' =>
      obtain ⟨k', v'⟩ := e'
      simp only [sparseWfFrom, Bool.and_eq_true, decide_eq_true_eq] at hm
      have hk : k = k' := by
        rcases lt_trichotomy k k' with hlt | heq | hgt
        · have hb := sparseGet_below (d := d) hm.2 (show k < k' + 1 by omega)
          have := h k
          simp [sparseGet, show k' ≠ k by omega, hb] at this
          exact absurd this hl.1.2
        · exact heq
        · have hb := sparseGet_below (d := d) hl.2 (show k' < k + 1 by omega)
          have := h k'
          simp [sparseGet, show k ≠ k' by omega, hb] at this
          exact absurd this.symm hm.1.2
      subst hk
      have hv : v = v' := by simpa [sparseGet] using h k
      subst hv
      have hrest : rest = rest' := by
        refine ih hl.2 hm.2 fun a => ?_
        by_cases ha : k = a
        · subst ha
          rw [sparseGet_below hl.2 (by omega), sparseGet_below hm.2 (by omega)]
        · simpa [sparseGet, ha] using h a
      rw [hrest]

/-- What a write lists: nothing but what was listed and its own address. -/
theorem mem_sparseSet {a : Nat} {x : α} {l : List (Nat × α)} {e : Nat × α} (h : e ∈ sparseSet d l a x) :
    e ∈ l ∨ e.1 = a := by
  induction l with
  | nil =>
    by_cases hx : x = d
    · simp [sparseSet, hx] at h
    · simp only [sparseSet, hx, if_false, List.mem_singleton] at h
      exact .inr (by rw [h])
  | cons f rest ih =>
    obtain ⟨k, v⟩ := f
    simp only [sparseSet] at h
    split at h
    · split at h
      · exact .inl h
      · rcases List.mem_cons.mp h with rfl | h
        · exact .inr rfl
        · exact .inl h
    · split at h
      · split at h
        · exact .inl (List.mem_cons_of_mem _ h)
        · rcases List.mem_cons.mp h with rfl | h
          · exact .inr rfl
          · exact .inl (List.mem_cons_of_mem _ h)
      · rcases List.mem_cons.mp h with rfl | h
        · exact .inl (List.mem_cons_self ..)
        · exact (ih h).imp (List.mem_cons_of_mem _) id

end sparse

/-! ## Caller memory -/

@[simp] theorem byteAt_nil (a : Nat) : Memory.byteAt [] a = 0 := rfl

theorem byteAt_put_other (m : Memory) {a b : Nat} (v : Byte) (h : b ≠ a) :
    (m.put a v).byteAt b = m.byteAt b := sparseGet_set_other v m h

theorem byteAt_put_same {m : Memory} (h : m.wf = true) (a : Nat) (v : Byte) : (m.put a v).byteAt a = v :=
  sparseGet_set_same v h

theorem wf_put {m : Memory} (h : m.wf = true) (a : Nat) (v : Byte) : (m.put a v).wf = true :=
  sparseWf_set v h (Nat.zero_le a)

theorem Memory.ext_byteAt {m n : Memory} (hm : m.wf = true) (hn : n.wf = true)
    (h : ∀ a, m.byteAt a = n.byteAt a) : m = n := sparse_ext hm hn h

/-- Writing a byte sequence leaves every address outside it alone. -/
theorem byteAt_putBytes_outside (m : Memory) (a b : Nat) (l : List Byte) (h : b < a ∨ a + l.length ≤ b) :
    (m.putBytes a l).byteAt b = m.byteAt b := by
  induction l generalizing m a with
  | nil => rfl
  | cons v rest ih =>
    simp only [List.length_cons] at h
    rw [Memory.putBytes, ih _ _ (by omega), byteAt_put_other _ _ (by omega)]

theorem wf_putBytes {m : Memory} (h : m.wf = true) (a : Nat) (l : List Byte) : (m.putBytes a l).wf = true := by
  induction l generalizing m a with
  | nil => exact h
  | cons v rest ih => exact ih (wf_put h a v) (a + 1)

/-- Inside it, each address holds its byte. -/
theorem byteAt_putBytes_inside {m : Memory} (h : m.wf = true) (a i : Nat) (l : List Byte) (hi : i < l.length) :
    (m.putBytes a l).byteAt (a + i) = l.getD i 0 := by
  induction l generalizing m a i with
  | nil => simp at hi
  | cons v rest ih =>
    cases i with
    | zero =>
      simp only [Memory.putBytes, Nat.add_zero]
      rw [byteAt_putBytes_outside _ _ _ _ (.inl (by omega)), byteAt_put_same h]
      rfl
    | succ i =>
      rw [Memory.putBytes, show a + (i + 1) = a + 1 + i by omega,
        ih (wf_put h a v) (a + 1) i (by simpa using hi)]
      rfl

@[simp] theorem bytesAt_length (m : Memory) (a n : Nat) : (m.bytesAt a n).length = n := by
  induction n generalizing a with
  | zero => rfl
  | succ n ih => simp [Memory.bytesAt, ih]

theorem bytesAt_getD (m : Memory) (a : Nat) {n i : Nat} (hi : i < n) :
    (m.bytesAt a n).getD i 0 = m.byteAt (a + i) := by
  induction n generalizing a i with
  | zero => omega
  | succ n ih =>
    cases i with
    | zero => rfl
    | succ i =>
      rw [Memory.bytesAt, List.getD_cons_succ, ih (a + 1) (by omega), show a + 1 + i = a + (i + 1) by omega]

/-- Two memories that agree on a range hold the same bytes there. -/
theorem bytesAt_congr {m m' : Memory} {a : Nat} {n : Nat} (h : ∀ i < n, m.byteAt (a + i) = m'.byteAt (a + i)) :
    m.bytesAt a n = m'.bytesAt a n := by
  induction n generalizing a with
  | zero => rfl
  | succ n ih =>
    have h0 := h 0 (by omega)
    have hs : m.bytesAt (a + 1) n = m'.bytesAt (a + 1) n := ih fun i hi => by
      simpa [show a + 1 + i = a + (i + 1) by omega] using h (i + 1) (by omega)
    simp only [Memory.bytesAt, hs, Nat.add_zero] at h0 ⊢
    rw [h0]

/-- A written sequence reads back whole. -/
theorem bytesAt_putBytes_same {m : Memory} (h : m.wf = true) (a : Nat) (l : List Byte) :
    (m.putBytes a l).bytesAt a l.length = l := by
  induction l generalizing m a with
  | nil => rfl
  | cons v rest ih =>
    have h0 : (m.putBytes a (v :: rest)).byteAt a = v := by
      simpa using byteAt_putBytes_inside h a 0 (v :: rest) (by simp)
    rw [List.length_cons, Memory.bytesAt, h0, Memory.putBytes, ih (wf_put h a v)]

/-- What a written sequence lists: what was listed, and addresses inside it. -/
theorem mem_putBytes {m : Memory} {a : Nat} {l : List Byte} {e : Host.Cell} (h : e ∈ m.putBytes a l) :
    e ∈ m ∨ a ≤ e.1 ∧ e.1 < a + l.length := by
  induction l generalizing m a with
  | nil => exact .inl h
  | cons v rest ih =>
    simp only [List.length_cons]
    rcases ih h with h | h
    · rcases mem_sparseSet h with h | h
      · exact .inl h
      · exact .inr (by omega)
    · exact .inr (by omega)

/-! ## The permission map -/

theorem permAt_put_other (p : PermMap) {a b : Nat} (x : Perm) (h : b ≠ a) : (p.put a x).at b = p.at b :=
  sparseGet_set_other x p h

theorem permAt_put_same {p : PermMap} (h : p.wf = true) (a : Nat) (x : Perm) : (p.put a x).at a = x :=
  sparseGet_set_same x h

theorem permWf_put {p : PermMap} (h : p.wf = true) (a : Nat) (x : Perm) : (p.put a x).wf = true :=
  sparseWf_set x h (Nat.zero_le a)

theorem permWf_putRange {p : PermMap} (h : p.wf = true) (a : Nat) (x : Perm) (n : Nat) :
    (p.putRange a x n).wf = true := by
  induction n generalizing p a with
  | zero => exact h
  | succ n ih => exact ih (permWf_put h a x) (a + 1)

theorem permAt_putRange_outside (p : PermMap) (a b : Nat) (x : Perm) (n : Nat) (h : b < a ∨ a + n ≤ b) :
    (p.putRange a x n).at b = p.at b := by
  induction n generalizing p a with
  | zero => rfl
  | succ n ih => rw [PermMap.putRange, ih _ _ (by omega), permAt_put_other _ _ (by omega)]

theorem permAt_putRange_inside {p : PermMap} (h : p.wf = true) (a : Nat) (x : Perm) {n i : Nat} (hi : i < n) :
    (p.putRange a x n).at (a + i) = x := by
  induction n generalizing p a i with
  | zero => omega
  | succ n ih =>
    cases i with
    | zero =>
      simp only [PermMap.putRange, Nat.add_zero]
      rw [permAt_putRange_outside _ _ _ _ _ (.inl (by omega)), permAt_put_same h]
    | succ i =>
      rw [PermMap.putRange, show a + (i + 1) = a + 1 + i by omega, ih (permWf_put h a x) (a + 1) (by omega)]

theorem mem_putRange {p : PermMap} {a : Nat} {x : Perm} {n : Nat} {e : Nat × Perm} (h : e ∈ p.putRange a x n) :
    e ∈ p ∨ a ≤ e.1 ∧ e.1 < a + n := by
  induction n generalizing p a with
  | zero => exact .inl h
  | succ n ih =>
    rcases ih h with h | h
    · rcases mem_sparseSet h with h | h
      · exact .inl h
      · exact .inr (by omega)
    · exact .inr (by omega)

end Sys2Proof.Machine
end

