-- ==== Sys2Proof/Laws/State.lean ====
section
/-! SUPPORT. One lemma for each field after each named update of State, each true by rfl. -/

namespace Sys2Proof.Machine

variable (s : State) (cause : Abort)

@[simp] theorem clearLatches_mem : s.clearLatches.mem = s.mem := rfl
@[simp] theorem clearLatches_perm : s.clearLatches.perm = s.perm := rfl
@[simp] theorem clearLatches_latches : s.clearLatches.latches = Latches.empty := rfl
@[simp] theorem clearLatches_abort : s.clearLatches.abort = s.abort := rfl
@[simp] theorem clearLatches_agents : s.clearLatches.agents = s.agents := rfl
@[simp] theorem clearLatches_schedule : s.clearLatches.schedule = s.schedule := rfl
@[simp] theorem clearLatches_draws : s.clearLatches.draws = s.draws := rfl

@[simp] theorem raiseAbort_mem : (raiseAbort cause s).mem = s.mem := rfl
@[simp] theorem raiseAbort_perm : (raiseAbort cause s).perm = s.perm := rfl
@[simp] theorem raiseAbort_latches : (raiseAbort cause s).latches = Latches.empty := rfl
@[simp] theorem raiseAbort_abort : (raiseAbort cause s).abort = some cause := rfl
@[simp] theorem raiseAbort_agents : (raiseAbort cause s).agents = s.agents := rfl
@[simp] theorem raiseAbort_schedule : (raiseAbort cause s).schedule = s.schedule := rfl
@[simp] theorem raiseAbort_draws : (raiseAbort cause s).draws = s.draws := rfl

@[simp] theorem platformReset_mem : (platformReset s).mem = s.mem := rfl
@[simp] theorem platformReset_perm : (platformReset s).perm = s.perm := rfl
@[simp] theorem platformReset_latches : (platformReset s).latches = Latches.empty := rfl
@[simp] theorem platformReset_abort : (platformReset s).abort = none := rfl
@[simp] theorem platformReset_agents : (platformReset s).agents = s.agents := rfl
@[simp] theorem platformReset_schedule : (platformReset s).schedule = s.schedule := rfl
@[simp] theorem platformReset_draws : (platformReset s).draws = s.draws := rfl

@[simp] theorem empty_abuf : Latches.empty.abuf = none := rfl
@[simp] theorem empty_bbuf : Latches.empty.bbuf = none := rfl
@[simp] theorem empty_a : Latches.empty.a = none := rfl
@[simp] theorem empty_b : Latches.empty.b = none := rfl
@[simp] theorem empty_r : Latches.empty.r = none := rfl
@[simp] theorem empty_obuf : Latches.empty.obuf = none := rfl

/-- An abort's code and pointer, as R92 pairs them, name it. -/
theorem Abort.ext_code_ptr {x y : Abort} (hc : x.code = y.code) (hp : x.ptr = y.ptr) : x = y := by
  cases x <;> cases y <;> simp_all [Abort.code, Abort.ptr]

end Sys2Proof.Machine
end

