-- ==== Sys2Proof/Laws/Access.lean ====
section
/-! SUPPORT. What the accesses to caller memory do: when a sequence of MemRead or MemWrite completes, and with what;
buffers; what validation comes to. -/

namespace Sys2Proof

/-! ## Buffers -/

theorem Buf.ext_bytes {x y : Buf} (h : x.bytes = y.bytes) : x = y := by
  cases x; cases y; cases h; rfl

theorem Buf.ofBytes_bytes {l : List Byte} (h : l.length = 32) : (Buf.ofBytes l).bytes = l := by
  simp [Buf.ofBytes, bufBytes, h]

/-- Two buffers with the same 32 bytes are the same. -/
theorem Buf.ext_get {x y : Buf} (h : ∀ i < 32, x.get i = y.get i) : x = y := by
  refine Buf.ext_bytes (List.ext_getElem (by rw [x.length_eq, y.length_eq]) fun i hx hy => ?_)
  have := h i (by rw [x.length_eq] at hx; exact hx)
  simpa [Buf.get, List.getD_eq_getElem?_getD, hx, hy] using this

namespace Machine

theorem bufAt_eq (s : State) (p : Nat) : s.bufAt p = Buf.ofBytes (s.mem.bytesAt p 32) := by
  unfold State.bufAt; rfl

/-- A buffer depends on memory alone. -/
theorem bufAt_congr {s t : State} (p : Nat) (h : t.mem = s.mem) : t.bufAt p = s.bufAt p := by
  rw [bufAt_eq, bufAt_eq, h]

theorem bufAt_bytes (s : State) (p : Nat) : (s.bufAt p).bytes = s.mem.bytesAt p 32 := by
  rw [bufAt_eq]
  exact Buf.ofBytes_bytes (bytesAt_length ..)

theorem bufAt_get (s : State) (p : Nat) {i : Nat} (hi : i < 32) : (s.bufAt p).get i = s.mem.byteAt (p + i) := by
  rw [Buf.get, bufAt_bytes, bytesAt_getD _ _ hi]

/-! ## MemRead and MemWrite -/

/-- A sequence of MemRead completes exactly when every byte is readable, with the bytes memory holds. -/
theorem memReadN_ok_iff (c : Config) (s : State) (a n : Nat) (l : List Byte) :
    memReadN c s a n = .ok l ↔ (∀ i < n, s.allows c .READ (a + i) = true) ∧ l = s.mem.bytesAt a n := by
  induction n generalizing a l with
  | zero =>
    refine ⟨fun h => ⟨fun i hi => absurd hi (Nat.not_lt_zero i), ?_⟩, fun h => ?_⟩
    · cases h; rfl
    · rw [h.2]; rfl
  | succ n ih =>
    have hsplit : (∀ i < n + 1, s.allows c .READ (a + i) = true) ↔
        s.allows c .READ a = true ∧ ∀ i < n, s.allows c .READ (a + 1 + i) = true := by
      constructor
      · intro h
        exact ⟨h 0 (by omega), fun i hi => by
          rw [show a + 1 + i = a + (i + 1) by omega]; exact h _ (by omega)⟩
      · rintro ⟨h0, h⟩ i hi
        cases i with
        | zero => exact h0
        | succ i => rw [show a + (i + 1) = a + 1 + i by omega]; exact h i (by omega)
    rw [hsplit]
    by_cases h0 : s.allows c .READ a = true
    · simp only [memReadN, memRead, h0, if_true, Memory.bytesAt, true_and]
      cases hr : memReadN c s (a + 1) n with
      | error e =>
        constructor
        · intro h; cases h
        · rintro ⟨h, rfl⟩
          have := (ih (a + 1) (s.mem.bytesAt (a + 1) n)).mpr ⟨h, rfl⟩
          rw [hr] at this; cases this
      | ok rest =>
        have hrest := (ih (a + 1) rest).mp hr
        constructor
        · intro h; cases h; exact ⟨hrest.1, by rw [← hrest.2]⟩
        · rintro ⟨-, rfl⟩; rw [hrest.2]
    · simp [memReadN, memRead, h0]

/-- A sequence of MemWrite completes exactly when every byte is writable, and changes those bytes alone. -/
theorem memWriteN_ok_iff (c : Config) (s : State) (a : Nat) (l : List Byte) (t : State) :
    memWriteN c s a l = .ok t ↔
      (∀ i < l.length, s.allows c .WRITE (a + i) = true) ∧ t = { s with mem := s.mem.putBytes a l } := by
  induction l generalizing s a with
  | nil =>
    refine ⟨fun h => ⟨fun i hi => absurd hi (Nat.not_lt_zero i), ?_⟩, fun h => ?_⟩
    · cases h; rfl
    · rw [h.2]; rfl
  | cons v rest ih =>
    have hsplit : (∀ i < (v :: rest).length, s.allows c .WRITE (a + i) = true) ↔
        s.allows c .WRITE a = true ∧ ∀ i < rest.length, s.allows c .WRITE (a + 1 + i) = true := by
      constructor
      · intro h
        exact ⟨h 0 (by simp), fun i hi => by
          rw [show a + 1 + i = a + (i + 1) by omega]; exact h _ (by simpa using hi)⟩
      · rintro ⟨h0, h⟩ i hi
        cases i with
        | zero => exact h0
        | succ i =>
          rw [show a + (i + 1) = a + 1 + i by omega]; exact h i (by simpa using hi)
    rw [hsplit]
    by_cases h0 : s.allows c .WRITE a = true
    · simp only [memWriteN, memWrite, h0, if_true, true_and, Memory.putBytes]
      exact ih { s with mem := s.mem.put a v } (a + 1)
    · simp [memWriteN, memWrite, h0]

/-! ## Validation -/

theorem accessible_iff (c : Config) (s : State) (k : Access) (p : Nat) :
    accessible c s k p = true ↔ p + 31 ≤ 2 ^ c.addrW - 1 ∧ ∀ i < 32, permits k (s.perm.at (p + i)) = true := by
  simp [accessible, inRange, bufBytes]

/-- Every byte of an admitted buffer may be accessed. -/
theorem allows_of_admitted {c : Config} {s : State} {k : Access} {p : Nat} (h : Admitted c s k p) {i : Nat}
    (hi : i < 32) : s.allows c k (p + i) = true := by
  obtain ⟨h0, -, hacc⟩ := h
  obtain ⟨hr, hp⟩ := (accessible_iff c s k p).mp hacc
  have hpos : 0 < 2 ^ c.addrW := Nat.two_pow_pos _
  simp only [State.allows, Bool.and_eq_true, decide_eq_true_eq]
  exact ⟨⟨by omega, by omega⟩, hp i hi⟩

/-- Admission depends on the permission map alone. -/
theorem admitted_congr {c : Config} {s t : State} {k : Access} {p : Nat} (h : t.perm = s.perm) :
    Admitted c t k p ↔ Admitted c s k p := by
  simp [Admitted, accessible, h]

theorem checkPtr_none_iff (c : Config) (s : State) (k : Access) (p : Nat) :
    checkPtr c s k p = none ↔ Admitted c s k p := by
  unfold checkPtr Admitted
  split
  · simp_all
  · split
    · simp_all
    · split <;> simp_all

theorem validate_none_iff (c : Config) (s : State) (a b o : Nat) :
    validate c s a b o = none ↔ CallAdmitted c s a b o := by
  unfold validate ptrAbort CallAdmitted
  rw [← checkPtr_none_iff, ← checkPtr_none_iff, ← checkPtr_none_iff]
  cases ha : checkPtr c s .READ a <;> cases hb : checkPtr c s .READ b <;> cases ho : checkPtr c s .WRITE o <;>
    simp [accessOf, ha, hb, ho]

/-- Step 1 of a call answers `admitted` exactly when validation passes and REFUSE does not refuse. -/
theorem admission_admitted_iff (c : Config) (s : State) (a b o : Nat) :
    admission c s a b o = .admitted ↔
      CallAdmitted c s a b o ∧ ¬(c.aliasOutMode = .REFUSE ∧ outOverlaps a b o = true) := by
  rw [← validate_none_iff]
  unfold admission
  cases validate c s a b o <;> simp

end Machine

end Sys2Proof
end

