-- ==== Sys2Proof/Laws/Codec.lean ====
section
/-! SUPPORT. The codec's folds as sums of digits, and the bounds that make each value fit its latch. -/

namespace Sys2Proof.Machine

open Finset in
theorem foldl_add_eq_sum (f : Nat → Nat) (n : Nat) :
    (List.range n).foldl (fun v j => v + f j) 0 = ∑ j ∈ range n, f j := by
  induction n with
  | zero => rfl
  | succ n ih => rw [List.range_succ, List.foldl_append, ih, sum_range_succ]; rfl

open Finset in
/-- n digits of w bits each make a number of w · n bits. -/
theorem sum_digits_lt (w n : Nat) (f : Nat → Nat) (h : ∀ j < n, f j < 2 ^ w) :
    ∑ j ∈ range n, f j * 2 ^ (w * j) < 2 ^ (w * n) := by
  induction n with
  | zero => simp
  | succ n ih =>
    have h1 := ih fun j hj => h j (by omega)
    have h2 : f n + 1 ≤ 2 ^ w := h n (by omega)
    calc ∑ j ∈ range (n + 1), f j * 2 ^ (w * j)
        < (f n + 1) * 2 ^ (w * n) := by rw [sum_range_succ, Nat.add_mul, Nat.one_mul]; omega
      _ ≤ 2 ^ w * 2 ^ (w * n) := Nat.mul_le_mul_right _ h2
      _ = 2 ^ (w * (n + 1)) := by rw [← pow_add]; congr 1; ring

open Finset in
/-- A limb is the sum of its eight bytes' digits (40_codec R61). -/
theorem limbOf_eq_sum (buf : Buf) (k : Nat) :
    limbOf buf k = ∑ j ∈ range 8, (buf.get (8 * k + j)).toNat * 2 ^ (8 * j) := foldl_add_eq_sum _ 8

open Finset in
/-- DECODE's value is the sum of its four limbs' digits (40_codec R61). -/
theorem decodeBuf_eq_sum (buf : Buf) : decodeBuf buf = ∑ k ∈ range 4, limbOf buf k * 2 ^ (64 * k) := by
  unfold decodeBuf
  exact foldl_add_eq_sum _ 4

theorem limbOf_lt (buf : Buf) (k : Nat) : limbOf buf k < 2 ^ 64 := by
  rw [limbOf_eq_sum]
  exact sum_digits_lt 8 8 (fun j => (buf.get (8 * k + j)).toNat) fun j _ => (buf.get _).isLt

/-- DECODE's value fits its latch. -/
theorem decodeBuf_lt (buf : Buf) : decodeBuf buf < 2 ^ 256 := by
  rw [decodeBuf_eq_sum]
  exact sum_digits_lt 64 4 (limbOf buf) fun k _ => limbOf_lt buf k

/-- The latch A or B after a DECODE holds DECODE's value. -/
theorem toNat_decodeBuf (buf : Buf) : (BitVec.ofNat 256 (decodeBuf buf)).toNat = decodeBuf buf := by
  rw [BitVec.toNat_ofNat, Nat.mod_eq_of_lt (decodeBuf_lt buf)]

/-- Byte 8k + j of ENCODE(x) is bits 8j + 7 to 8j of limb k (40_codec R63). -/
theorem encodeVal_get (x : Nat) {k j : Nat} (hk : k < 4) (hj : j < 8) :
    (encodeVal x).get (8 * k + j) = BitVec.ofNat 8 (bitField (bitField x (64 * k) 64) (8 * j) 8) := by
  have h4 : List.range 4 = [0, 1, 2, 3] := rfl
  have h8 : List.range 8 = [0, 1, 2, 3, 4, 5, 6, 7] := rfl
  show (encodeBytes x).getD (8 * k + j) 0 = _
  unfold encodeBytes
  rw [h4, h8]
  interval_cases k <;> interval_cases j <;> rfl

end Sys2Proof.Machine
end

