-- ==== Sys2Proof/Laws/Boundary.lean ====
section
/-! SUPPORT. What the stages of a call do, one lemma each, and what the four steps of MULTIPLY come to. -/

namespace Sys2Proof.Machine

@[simp] theorem andThen_next (s : State) (f : State → Result) : andThen (.next s) f = f s := rfl
@[simp] theorem andThen_fault (r : Fault) (f : State → Result) : andThen (.fault r) f = .fault r := rfl
@[simp] theorem andThen_refused (r : Refusal) (f : State → Result) : andThen (.refused r) f = .refused r := rfl

/-- A next state is determined (said once, so that no proof takes an equation of two states apart by computing them). -/
theorem next_inj {s t : State} (h : (.next s : Result) = .next t) : s = t := (Host.Outcome.next.injEq s t).mp h

/-- A sequence answers a next state only through one of its first part. -/
theorem andThen_eq_next {o : Result} {f : State → Result} {t : State} (h : andThen o f = .next t) :
    ∃ s, o = .next s ∧ f s = .next t := by
  cases o with
  | next s => exact ⟨s, rfl, h⟩
  | fault r => cases h
  | refused r => cases h

/-- FMUL's result is a remainder modulo P in both branches and both modes (41_multiplier R70). -/
theorem fmul_is_remainder (c : Config) (a b n : Nat) : ∃ m, fmul c a b n = m % c.modulus := by
  unfold fmul
  split
  · exact ⟨_, rfl⟩
  · split
    · exact ⟨_, rfl⟩
    · exact ⟨_, rfl⟩

/-- Reading an admitted input buffer latches its bytes and changes nothing else. -/
theorem loadInput_admitted {c : Config} {s : State} {p : Nat} (side : Side) (h : Admitted c s .READ p) :
    loadInput c side p s = .next { s with latches := s.latches.setInputBuf side (s.bufAt p) } := by
  have := (memReadN_ok_iff c s p 32 _).mpr ⟨fun i hi => allows_of_admitted h hi, rfl⟩
  simp only [loadInput, bufBytes, this, bufAt_eq]

/-- Writing an admitted output buffer changes its 32 bytes and nothing else. -/
theorem storeOutput_admitted {c : Config} {s : State} {p : Nat} {buf : Buf} (h : Admitted c s .WRITE p)
    (hbuf : s.latches.obuf = some buf) :
    storeOutput c p s = .next { s with mem := s.mem.putBytes p buf.bytes } := by
  have := (memWriteN_ok_iff c s p buf.bytes _).mpr
    ⟨fun i hi => allows_of_admitted h (by rw [buf.length_eq] at hi; exact hi), rfl⟩
  simp only [storeOutput, hbuf, this, ofAccess]

/-- The value a call computes from two buffers, n being its draw. -/
def productOf (c : Config) (x y : Buf) (n : Nat) : Nat := fmul c (decodeBuf x) (decodeBuf y) n

/-- The state in which a call has computed its product: all latches written from the bytes at the call. -/
def latched (c : Config) (a b : Nat) (s : State) : State :=
  { s with
    latches := {
      abuf := some (s.bufAt a)
      bbuf := some (s.bufAt b)
      a := some (BitVec.ofNat 256 (decodeBuf (s.bufAt a)))
      b := some (BitVec.ofNat 256 (decodeBuf (s.bufAt b)))
      r := some (BitVec.ofNat 256 (productOf c (s.bufAt a) (s.bufAt b) s.draws))
      obuf := some (encodeVal (BitVec.ofNat 256 (productOf c (s.bufAt a) (s.bufAt b) s.draws)).toNat) }
    draws := if usesDraw c (decodeBuf (s.bufAt a)) (decodeBuf (s.bufAt b)) then s.draws + 1 else s.draws }

@[simp] theorem latched_mem (c : Config) (a b : Nat) (s : State) : (latched c a b s).mem = s.mem := rfl
@[simp] theorem latched_perm (c : Config) (a b : Nat) (s : State) : (latched c a b s).perm = s.perm := rfl
@[simp] theorem latched_abort (c : Config) (a b : Nat) (s : State) : (latched c a b s).abort = s.abort := rfl
@[simp] theorem latched_agents (c : Config) (a b : Nat) (s : State) : (latched c a b s).agents = s.agents := rfl
@[simp] theorem latched_schedule (c : Config) (a b : Nat) (s : State) : (latched c a b s).schedule = s.schedule := rfl
theorem latched_obuf (c : Config) (a b : Nat) (s : State) : (latched c a b s).latches.obuf =
    some (encodeVal (BitVec.ofNat 256 (productOf c (s.bufAt a) (s.bufAt b) s.draws)).toNat) := rfl

/-- Steps 2 and 3 of a call whose inputs are admitted: only the latches and the draw counter change. -/
theorem computeProduct_admitted {c : Config} {s : State} {a b : Nat} (ha : Admitted c s .READ a)
    (hb : Admitted c s .READ b) : computeProduct c a b s = .next (latched c a b s) := by
  have ha' : Admitted c s.clearLatches .READ a := (admitted_congr rfl).mpr ha
  have hb' : Admitted c { s.clearLatches with
      latches := s.clearLatches.latches.setInputBuf .a (s.clearLatches.bufAt a) } .READ b := (admitted_congr rfl).mpr hb
  rw [computeProduct, loadInput_admitted .a ha', andThen_next, loadInput_admitted .b hb', andThen_next]
  simp only [decodeStage, fmulStage, encodeStage, andThen_next, Latches.setInputBuf, Latches.inputBuf,
    Latches.setOperand, toNat_decodeBuf, bufAt_eq, clearLatches_mem]
  simp only [latched, productOf, bufAt_eq]
  rfl

/-- A call that answers a next state took one of two ways: it aborted, or it was admitted. -/
theorem multiply_next_cases {c : Config} {s t : State} {a b o : Nat} (h : multiply c a b o s = .next t) :
    (∃ cause, validate c s a b o = some cause ∧ t = raiseAbort cause s) ∨ admission c s a b o = .admitted := by
  unfold multiply at h
  cases hv : admission c s a b o with
  | abort cause =>
    rw [hv] at h
    refine .inl ⟨cause, ?_, by simpa using h.symm⟩
    unfold admission at hv
    cases hval : validate c s a b o with
    | some cause' => rw [hval] at hv; simpa using hv
    | none => rw [hval] at hv; simp only at hv; split at hv <;> cases hv
  | refuse => rw [hv] at h; cases h
  | admitted => exact .inr rfl

/-- A call whose validation fails takes the abort (42_ffi R78, 60_exceptions R93). -/
theorem multiply_abort {c : Config} {s : State} {a b o : Nat} {cause : Abort}
    (h : validate c s a b o = some cause) : multiply c a b o s = .next (raiseAbort cause s) := by
  unfold multiply admission
  rw [h]

/-- A call that step 1 admits writes ENCODE of its product, leaves no latch and counts the draw it took (R78). -/
theorem multiply_admitted {c : Config} {s : State} {a b o : Nat} (h : admission c s a b o = .admitted) :
    multiply c a b o s = .next { s with
      mem := s.mem.putBytes o (encodeVal (BitVec.ofNat 256 (productOf c (s.bufAt a) (s.bufAt b) s.draws)).toNat).bytes
      latches := Latches.empty
      draws := if usesDraw c (decodeBuf (s.bufAt a)) (decodeBuf (s.bufAt b)) then s.draws + 1 else s.draws } := by
  obtain ⟨ha, hb, ho⟩ := ((admission_admitted_iff c s a b o).mp h).1
  have ho' : Admitted c (latched c a b s) .WRITE o := (admitted_congr rfl).mpr ho
  unfold multiply
  rw [h]
  simp only
  rw [computeProduct_admitted ha hb, andThen_next, storeOutput_admitted ho' (latched_obuf c a b s), andThen_next]
  rfl

end Sys2Proof.Machine
end

