-- ==== Sys2Proof/Laws/Config.lean ====
section
/-! SUPPORT. What is known of this hardware's open parameters: the constraints of spec 00_scope R8, and no more. -/

namespace Sys2Proof

theorem Config.hardwareModulus_isModulus : Config.IsModulus Config.hardwareModulus := by
  unfold Config.hardwareModulus
  split
  · assumption
  · exact ⟨by norm_num, by norm_num, by norm_num⟩

theorem Config.hardware_addrW_le : Config.hardware.addrW ≤ 64 := by
  show max 16 (min Config.rawAddrW 64) ≤ 64
  omega

theorem Config.hardware_le_addrW : 16 ≤ Config.hardware.addrW := by
  show 16 ≤ max 16 (min Config.rawAddrW 64)
  omega

theorem Config.hardware_admissible : Config.hardware.Admissible where
  modulus := Config.hardwareModulus_isModulus
  align := by decide
  descWordBytes := by
    have h := Config.hardware_addrW_le
    show 8 = max 8 ((Config.hardware.addrW + 7) / 8)
    omega

end Sys2Proof
end

