-- ==== Sys2Proof/Laws/Decode.lean ====
section
/-! SUPPORT. The byte order helpers of the decoder: lengths, and that a value read back from its own bytes is itself. -/

namespace Sys2Proof

@[simp] theorem leBytes_length (n v : Nat) : (leBytes n v).length = n := by
  induction n generalizing v with
  | zero => rfl
  | succ n ih => simp [leBytes, ih]

theorem leValue_lt (l : List Byte) : leValue l < 256 ^ l.length := by
  induction l with
  | nil => simp [leValue]
  | cons b rest ih =>
    have hb : b.toNat < 256 := b.isLt
    simp only [leValue, List.length_cons, pow_succ]
    omega

/-- n bytes of a value that fits them read back as it. -/
theorem leValue_leBytes {n v : Nat} (h : v < 256 ^ n) : leValue (leBytes n v) = v := by
  induction n generalizing v with
  | zero => simp at h; simp [leBytes, leValue, h]
  | succ n ih =>
    rw [leBytes, leValue, ih (by rw [pow_succ] at h; omega), BitVec.toNat_ofNat]
    omega

/-- The bytes of a value read from n bytes are those bytes. -/
theorem leBytes_leValue (l : List Byte) : leBytes l.length (leValue l) = l := by
  induction l with
  | nil => rfl
  | cons b rest ih =>
    have hb : b.toNat < 256 := b.isLt
    have hdiv : (b.toNat + 256 * leValue rest) / 256 = leValue rest := by omega
    rw [leValue, List.length_cons, leBytes, hdiv, ih]
    congr 1
    apply BitVec.eq_of_toNat_eq
    rw [BitVec.toNat_ofNat]
    omega

@[simp] theorem wordsBytes_length (n : Nat) (d : Descriptor) : (wordsBytes n d).length = 4 * n := by
  simp [wordsBytes]; omega

end Sys2Proof
end

