-- ==== Sys2Proof/Laws/Fetch.lean ====
section
/-! SUPPORT. What a step can do, said once: an agent's turn, the events, and the ways a step answers a next state. -/

namespace Sys2Proof.Machine

/-- An agent's turn: the agent is there, its call was not cut, it has an action left, and its program moves past it. -/
theorem takeAction_eq_some {s t : State} {k : Nat} {act : HostAction} (h : s.takeAction k = some (act, t)) :
    ∃ ag left, s.agents[k]? = some ag ∧ ag.lost = false ∧ ag.program.next = some (act, left) ∧
      t = { s with agents := s.agents.set k { ag with program := left, index := ag.index + 1 } } := by
  unfold State.takeAction at h
  cases hk : s.agents[k]? with
  | none => simp [hk] at h
  | some ag =>
    cases hl : ag.lost with
    | true => simp [hk, hl] at h
    | false =>
      cases hn : ag.program.next with
      | none => simp [hk, hl, hn] at h
      | some p =>
        obtain ⟨a, left⟩ := p
        simp only [hk, hl, hn, Bool.false_eq_true, if_false, Option.some.injEq, Prod.mk.injEq] at h
        exact ⟨ag, left, rfl, hl, by rw [hn, h.1], by rw [hl]; exact h.2.symm⟩

theorem takeAction_of {s : State} {k : Nat} {ag : Agent} {act : HostAction} {left : Script}
    (hk : s.agents[k]? = some ag) (hl : ag.lost = false) (hn : ag.program.next = some (act, left)) :
    s.takeAction k =
      some (act, { s with agents := s.agents.set k { ag with program := left, index := ag.index + 1 } }) := by
  simp [State.takeAction, hk, hl, hn]

/-- Everything but the agents is as it was after an agent's turn is taken. -/
theorem takeAction_frame {s t : State} {k : Nat} {act : HostAction} (h : s.takeAction k = some (act, t)) :
    t.mem = s.mem ∧ t.perm = s.perm ∧ t.latches = s.latches ∧ t.abort = s.abort ∧ t.schedule = s.schedule ∧
      t.draws = s.draws := by
  obtain ⟨ag, left, -, -, -, rfl⟩ := takeAction_eq_some h
  exact ⟨rfl, rfl, rfl, rfl, rfl, rfl⟩

@[simp] theorem loseAgent_mem (s : State) (k : Nat) : (s.loseAgent k).mem = s.mem := by
  unfold State.loseAgent; split <;> rfl
@[simp] theorem loseAgent_perm (s : State) (k : Nat) : (s.loseAgent k).perm = s.perm := by
  unfold State.loseAgent; split <;> rfl
@[simp] theorem loseAgent_draws (s : State) (k : Nat) : (s.loseAgent k).draws = s.draws := by
  unfold State.loseAgent; split <;> rfl
@[simp] theorem loseAgent_schedule (s : State) (k : Nat) : (s.loseAgent k).schedule = s.schedule := by
  unfold State.loseAgent; split <;> rfl

@[simp] theorem cutBytes_length (n : Nat) (olds news : List Byte) :
    (cutBytes n olds news).length = min olds.length news.length := by
  induction olds generalizing n news with
  | nil => simp [cutBytes]
  | cons o os ih =>
    cases news with
    | nil => simp [cutBytes]
    | cons v vs => simp [cutBytes, ih, Nat.succ_min_succ]

/-- Each byte of a cut buffer is the old one or the new one (spec 70_reset R109). -/
theorem cutBytes_getD (n : Nat) (olds news : List Byte) (i : Nat) (ho : i < olds.length) (hn : i < news.length) :
    (cutBytes n olds news).getD i 0 = olds.getD i 0 ∨ (cutBytes n olds news).getD i 0 = news.getD i 0 := by
  induction olds generalizing n news i with
  | nil => simp at ho
  | cons o os ih =>
    cases news with
    | nil => simp at hn
    | cons v vs =>
      cases i with
      | zero =>
        simp only [cutBytes, List.getD_cons_zero]
        split
        · exact .inr rfl
        · exact .inl rfl
      | succ i =>
        simpa [cutBytes] using ih (n + 1) vs i (by simpa using ho) (by simpa using hn)

/-- A step from a state with no abort recorded does what the next event comes to. -/
theorem step_live {s : State} (h : s.abort = none) :
    step s = match fetch Config.hardware s with
      | .run i t => exec i t
      | .other o => o := by
  unfold step
  split
  · rename_i hc; rw [h] at hc; cases hc
  · rfl

theorem fetch_agent {s : State} {k : Nat} {rest : List Event} (h : s.schedule = .agent k :: rest) (c : Config) :
    fetch c s = agentTurn c k { s with schedule := rest } := by
  unfold fetch; rw [h]

/-- A step that answers a next state ran in a state with no abort recorded, and either ran an instruction or did one
of the events that run none. -/
theorem step_next_cases {s t : State} (h : step s = .next t) :
    s.abort = none ∧
      ((∃ i u, fetch Config.hardware s = .run i u ∧ exec i u = .next t) ∨
        fetch Config.hardware s = .other (.next t)) := by
  unfold step at h
  cases ha : s.abort with
  | some cause => rw [ha] at h; cases h
  | none =>
    rw [ha] at h
    cases hf : fetch Config.hardware s with
    | run i u => rw [hf] at h; exact ⟨rfl, .inl ⟨i, u, rfl, h⟩⟩
    | other o => rw [hf] at h; exact ⟨rfl, .inr (by rw [show o = _ from h])⟩

/-- The state an instruction runs in differs from the state before the step in its agents and its schedule alone. -/
theorem fetch_run_frame {c : Config} {s u : State} {i : Instr} (h : fetch c s = .run i u) :
    u.mem = s.mem ∧ u.perm = s.perm ∧ u.latches = s.latches ∧ u.abort = s.abort ∧ u.draws = s.draws := by
  have hf : ∀ {d : Except DecodeRefusal Instr} {t : State}, fetched d t = .run i u → u = t := fun {d t} h => by
    cases d with
    | ok j => exact ((Fetched.run.injEq ..).mp h).2.symm
    | error e => cases h
  unfold fetch at h
  split at h
  · cases h
  · rename_i k rest _
    unfold agentTurn at h
    split at h
    · cases h
    · rename_i d t ht
      obtain ⟨h1, h2, h3, h4, -, h6⟩ := takeAction_frame ht
      rw [hf h]
      exact ⟨h1, h2, h3, h4, h6⟩
    · cases h
    · cases h
    · cases h
  · cases h
  · cases h
  · rw [hf h]
    exact ⟨rfl, rfl, rfl, rfl, rfl⟩

end Sys2Proof.Machine
end

