-- ==== Sys2Proof/Laws/PerInstr.lean ====
section
/-! SUPPORT. Statements made of every instruction, one lemma for each constructor. -/

/-- Every instruction's descriptor has the one length a decoder reads (spec 30_encoding R57). -/
def Sys2Proof.Laws.DescriptorLength.Statement (i : Sys2Proof.Instr) : Prop :=
  ∀ c : Sys2Proof.Config, (Sys2Proof.encode c i).length = 4 * c.descWordBytes

theorem Sys2Proof.Laws.DescriptorLength.multiply (aPtr bPtr outPtr : Nat) :
    Sys2Proof.Laws.DescriptorLength.Statement (.multiply aPtr bPtr outPtr) :=
  fun _ => Sys2Proof.wordsBytes_length _ _

theorem Sys2Proof.Laws.DescriptorLength.decode (side : Sys2Proof.Side) :
    Sys2Proof.Laws.DescriptorLength.Statement (.decode side) :=
  fun _ => Sys2Proof.wordsBytes_length _ _

theorem Sys2Proof.Laws.DescriptorLength.encode : Sys2Proof.Laws.DescriptorLength.Statement .encode :=
  fun _ => Sys2Proof.wordsBytes_length _ _

theorem Sys2Proof.Laws.DescriptorLength.fmul : Sys2Proof.Laws.DescriptorLength.Statement .fmul :=
  fun _ => Sys2Proof.wordsBytes_length _ _
end

