-- ==== Sys2Proof/Laws/Run.lean ====
section
/-! SUPPORT. Runs of the machine, one step at a time. -/

namespace Sys2Proof.Machine

theorem run_fault {s : State} {r : Fault} (n : Nat) (h : step s = .fault r) :
    Host.Core.run Sys2Proof.core (n + 1) s = .fault r := by
  have h' : Host.Core.step Sys2Proof.core s = .fault r := h
  simp only [Host.Core.run, h']

theorem run_next {s t : State} (n : Nat) (h : step s = .next t) :
    Host.Core.run Sys2Proof.core (n + 1) s = Host.Core.run Sys2Proof.core n t := by
  have h' : Host.Core.step Sys2Proof.core s = .next t := h
  simp only [Host.Core.run, h']

end Sys2Proof.Machine
end

