-- ==== Sys2Proof/Tests/Slice0.lean ====
section
/-! SUPPORT. Checks of this model against the spec's own vectors (spec 95_test_vectors), and, for each statement of the
provers that has hypotheses, a concrete state and operands that meet them together. Every expected value is the spec's
or worked out by hand from its rules. (One theorem is checked at a time: each waiting thread reserves a large stack.) -/

set_option Elab.async false

namespace Sys2Proof.Tests

open Sys2Proof Sys2Proof.Machine

/-! ## Helpers -/

/-- The configuration of 95_test_vectors sections 2 and 3, with its candidate modulus. -/
def vectors : Config where
  modulus := Config.pEd25519
  addrW := 64
  align := 8
  noncanonMode := .REDUCE
  aliasOutMode := .DEFINED
  descWordBytes := 8
  latency := 0

/-- The least modulus R8 allows. -/
def tiny : Config := { vectors with modulus := 7 }

/-- The same permission at n addresses. -/
def rangePerm (a n : Nat) (x : Perm) : PermMap := (List.range n).map fun i => (a + i, x)

/-- The launch memory of 95_test_vectors 2.3: a (2) and b (3) at 0x2000 and 0x2020, read only; 0x1000..0x10FF read and
write; the last 32 addresses read only. -/
def launch : State :=
  { State.reset with
    mem := [(0x2000, 2), (0x2020, 3)]
    perm := rangePerm 0x1000 0x100 .RW ++ rangePerm 0x2000 0x40 .R ++ rangePerm 0xFFFFFFFFFFFFFFE0 0x20 .R }

/-- The same with bytes put at 0x1000. -/
def launchWith (bytes : List Byte) : State := { launch with mem := launch.mem.putBytes 0x1000 bytes }

/-- The n bytes at an address after a step that answers a next state. -/
def bytesAfter (o : Result) (a n : Nat) : Option (List Byte) :=
  match o with
  | .next t => some (t.mem.bytesAt a n)
  | .fault _ => none
  | .refused _ => none

/-- The abort recorded by a step that answers a next state and leaves memory as `launch` has it. -/
def abortAfter (o : Result) : Option Abort :=
  match o with
  | .next t => if t.mem = launch.mem then t.abort else none
  | .fault _ => none
  | .refused _ => none

/-- The latches after a step that answers a next state. -/
def latchesAfter (o : Result) : Option Latches :=
  match o with
  | .next t => some t.latches
  | .fault _ => none
  | .refused _ => none

/-- The refusal of a step. -/
def refusalOfStep (o : Result) : Option Refusal :=
  match o with
  | .next _ => none
  | .fault _ => none
  | .refused r => some r

/-- The fault of a step. -/
def faultOfStep (o : Result) : Option Fault :=
  match o with
  | .next _ => none
  | .fault r => some r
  | .refused _ => none

/-- A decoder's refusal, if it refuses. -/
def refusalIn (d : Except DecodeRefusal Instr) : Option DecodeRefusal :=
  match d with
  | .ok _ => none
  | .error e => some e

/-- The bytes v and then zeros, 32 in all: `v + n × 00`. -/
def padded (v : List Byte) : List Byte := v ++ List.replicate (32 - v.length) 0

/-- A descriptor whose first word has this low byte and whose other words are 0. -/
def indexOnly (opidx : Byte) : List Byte := opidx :: List.replicate 31 0

/-! ## WellFormed: an ill-formed term for each check -/

theorem test_wf_largest_pointers : wellFormed vectors (.multiply (2 ^ 64 - 1) (2 ^ 64 - 1) (2 ^ 64 - 1)) = true := by decide
theorem test_wf_refuses_a : wellFormed vectors (.multiply (2 ^ 64) 0 0) = false := by decide
theorem test_wf_refuses_b : wellFormed vectors (.multiply 0 (2 ^ 64) 0) = false := by decide
theorem test_wf_refuses_out : wellFormed vectors (.multiply 0 0 (2 ^ 64)) = false := by decide

/-! ## Decode: words written out from R53 and R54 -/

/-- 95 L3-2, call 1. -/
theorem test_decode_multiply :
    (decodeDescriptor vectors [0x00, 0x00, 0x00, 0x00, 0x00, 0x00, 0x00, 0x00, 0x00, 0x20, 0x00, 0x00, 0x00, 0x00, 0x00, 0x00,
      0x20, 0x20, 0x00, 0x00, 0x00, 0x00, 0x00, 0x00, 0x00, 0x10, 0x00, 0x00, 0x00, 0x00, 0x00, 0x00]).toOption
      = some (.multiply 0x2000 0x2020 0x1000) := by decide +kernel

/-- The same word, from the encoder. -/
theorem test_encode_multiply : encode vectors (.multiply 0x2000 0x2020 0x1000) =
    [0x00, 0x00, 0x00, 0x00, 0x00, 0x00, 0x00, 0x00, 0x00, 0x20, 0x00, 0x00, 0x00, 0x00, 0x00, 0x00,
      0x20, 0x20, 0x00, 0x00, 0x00, 0x00, 0x00, 0x00, 0x00, 0x10, 0x00, 0x00, 0x00, 0x00, 0x00, 0x00] := by decide +kernel

theorem test_decode_decode_a : (decodeOperation vectors
    [0x01, 0x00, 0x00, 0x00, 0x00, 0x00, 0x00, 0x00, 0x00, 0x00, 0x00, 0x00, 0x00, 0x00, 0x00, 0x00,
      0x00, 0x00, 0x00, 0x00, 0x00, 0x00, 0x00, 0x00, 0x00, 0x00, 0x00, 0x00, 0x00, 0x00, 0x00, 0x00]).toOption
      = some (.decode .a) := by decide +kernel

theorem test_decode_decode_b : (decodeOperation vectors
    [0x01, 0x00, 0x00, 0x00, 0x00, 0x00, 0x00, 0x00, 0x01, 0x00, 0x00, 0x00, 0x00, 0x00, 0x00, 0x00,
      0x00, 0x00, 0x00, 0x00, 0x00, 0x00, 0x00, 0x00, 0x00, 0x00, 0x00, 0x00, 0x00, 0x00, 0x00, 0x00]).toOption
      = some (.decode .b) := by decide +kernel

theorem test_decode_encode : (decodeOperation vectors
    [0x02, 0x00, 0x00, 0x00, 0x00, 0x00, 0x00, 0x00, 0x00, 0x00, 0x00, 0x00, 0x00, 0x00, 0x00, 0x00,
      0x00, 0x00, 0x00, 0x00, 0x00, 0x00, 0x00, 0x00, 0x00, 0x00, 0x00, 0x00, 0x00, 0x00, 0x00, 0x00]).toOption
      = some .encode := by decide +kernel

theorem test_decode_fmul : (decodeOperation vectors
    [0x03, 0x00, 0x00, 0x00, 0x00, 0x00, 0x00, 0x00, 0x00, 0x00, 0x00, 0x00, 0x00, 0x00, 0x00, 0x00,
      0x00, 0x00, 0x00, 0x00, 0x00, 0x00, 0x00, 0x00, 0x00, 0x00, 0x00, 0x00, 0x00, 0x00, 0x00, 0x00]).toOption
      = some .fmul := by decide +kernel

/-- R55, R60: a caller's descriptor of a stage, or a reserved one, is refused by name. -/
theorem test_descriptor_refusals :
    refusalIn (decodeDescriptor vectors (indexOnly 1)) = some (.internalStage 1) ∧
      refusalIn (decodeDescriptor vectors (indexOnly 3)) = some (.internalStage 3) ∧
      refusalIn (decodeDescriptor vectors (indexOnly 4)) = some (.reserved 4) ∧
      refusalIn (decodeDescriptor vectors (padded [0, 0, 0, 0, 0, 0, 0, 0x80])) = some (.reserved (2 ^ 63)) := by
  decide +kernel

/-- R57: exactly 32 bytes. -/
theorem test_descriptor_length :
    refusalIn (decodeDescriptor vectors (List.replicate 31 0)) = some (.badLength 31) ∧
      refusalIn (decodeDescriptor vectors (List.replicate 33 0)) = some (.badLength 33) := by decide +kernel

/-- The four rows of opcode_table.json, and a word of none. -/
theorem test_table_words : decodeTableWord 64 0 = some (.multiply 0 0 0) ∧ decodeTableWord 64 1 = some (.decode .a) ∧
    decodeTableWord 64 2 = some .encode ∧ decodeTableWord 64 3 = some .fmul ∧ decodeTableWord 64 4 = none := by
  decide +kernel

/-! ## The stages: 95_test_vectors 2.1 and 2.2 -/

/-- C4, C5, C7: bytes in a limb and limbs in a value are little-endian. -/
theorem test_decode_vectors :
    decodeBuf (Buf.ofBytes [8, 7, 6, 5, 4, 3, 2, 1]) = 0x102030405060708 ∧
      decodeBuf (Buf.ofBytes [0, 0, 0, 0, 0, 0, 0, 0, 1]) = 0x10000000000000000 ∧
      decodeBuf (Buf.ofBytes ((List.range 32).map (BitVec.ofNat 8))) =
        0x1f1e1d1c1b1a191817161514131211100f0e0d0c0b0a09080706050403020100 := by decide +kernel

/-- C8 as a stage on the side b: all ones, not reduced. -/
theorem test_decode_stage_b : latchesAfter (execDecode .b
    { State.reset with latches := { Latches.empty with bbuf := some (Buf.ofBytes (List.replicate 32 0xff)) } }) =
    some { Latches.empty with bbuf := some (Buf.ofBytes (List.replicate 32 0xff)), b := some (2 ^ 256 - 1) } := by
  decide +kernel

/-- E4, E5, E7. -/
theorem test_encode_vectors :
    (encodeVal 0xffffffffffffffff).bytes = padded (List.replicate 8 0xff) ∧
      (encodeVal 0x102030405060708090a0b0c0d0e0f10).bytes =
        padded [0x10, 0x0f, 0x0e, 0x0d, 0x0c, 0x0b, 0x0a, 9, 8, 7, 6, 5, 4, 3, 2, 1] ∧
      (encodeVal 0xffffffffffffffffffffffffffffffec6ef5bf4737dcf70d6ec31748d98951d).bytes =
        [0x1d, 0x95, 0x98, 0x8d, 0x74, 0x31, 0xec, 0xd6, 0x70, 0xcf, 0x7d, 0x73, 0xf4, 0x5b, 0xef, 0xc6,
          0xfe, 0xff, 0xff, 0xff, 0xff, 0xff, 0xff, 0xff, 0xff, 0xff, 0xff, 0xff, 0xff, 0xff, 0xff, 0x0f] := by
  decide +kernel

/-- E2 as a stage. -/
theorem test_encode_stage : latchesAfter (execEncode { State.reset with latches := { Latches.empty with r := some 6 } }) =
    some { Latches.empty with r := some 6, obuf := some (Buf.ofBytes [6]) } := by decide +kernel

/-- M5, M9, M11, N1, N4. -/
theorem test_fmul_vectors :
    fmul vectors (Config.pEd25519 - 1) (Config.pEd25519 - 1) 0 = 1 ∧
      fmul vectors (2 ^ 128) (2 ^ 128) 0 = 0xffffffffffffffffffffffffffffffec6ef5bf4737dcf70d6ec31748d98951d ∧
      fmul vectors 0x123456789abcdeffedcba98765432100f1e2d3c4b5a69788796a5b4c3d2e1f0
        0xa1b2c3d4e5f60718293a4b5c6d7e8f900112233445566778899aabbccddeeff 0 =
        0x4f4764e7d1b290c1a04e4b212d701d23ac0ea33da0fd8f1630b584db2d5392e ∧
      fmul vectors Config.pEd25519 5 0 = 0 ∧
      fmul vectors (2 ^ 256 - 1) (2 ^ 256 - 1) 0 = 0x399411b7c309a3dceec73d217f5be686bed577bc7792e12a652752ee3568ca2 := by
  decide +kernel

/-- M1 as a stage. -/
theorem test_fmul_stage : latchesAfter (fmulStage tiny
    { State.reset with latches := { Latches.empty with a := some 2, b := some 3 } }) =
    some { Latches.empty with a := some 2, b := some 3, r := some 6 } := by decide +kernel

/-! ## MULTIPLY: 95_test_vectors 2.3 -/

/-- B1, B16, B18 (ALIGN = 1), B19, B20, B21. -/
theorem test_multiply_results :
    bytesAfter (multiply vectors 0x2000 0x2020 0x1000 launch) 0x1000 32 = some (padded [6]) ∧
      bytesAfter (multiply vectors 0xffffffffffffffe0 0x2020 0x1000 launch) 0x1000 32 = some (padded []) ∧
      bytesAfter (multiply { vectors with align := 1 } 0x2001 0x2020 0x1000 launch) 0x1000 32 =
        some (List.replicate 31 0 ++ [9]) ∧
      bytesAfter (multiply vectors 0x2000 0x2000 0x1000 launch) 0x1000 32 = some (padded [4]) ∧
      bytesAfter (multiply vectors 0x1000 0x1000 0x1000 (launchWith [5])) 0x1000 32 = some (padded [0x19]) ∧
      bytesAfter (multiply vectors 0x1000 0x2020 0x1010
        (launchWith ((List.range 32).map fun i => BitVec.ofNat 8 (0x1f - i)))) 0x1000 48 =
        some [0x1f, 0x1e, 0x1d, 0x1c, 0x1b, 0x1a, 0x19, 0x18, 0x17, 0x16, 0x15, 0x14, 0x13, 0x12, 0x11, 0x10,
          0x5d, 0x5a, 0x57, 0x54, 0x51, 0x4e, 0x4b, 0x48, 0x45, 0x42, 0x3f, 0x3c, 0x39, 0x36, 0x33, 0x30,
          0x2d, 0x2a, 0x27, 0x24, 0x21, 0x1e, 0x1b, 0x18, 0x15, 0x12, 0x0f, 0x0c, 0x09, 0x06, 0x03, 0x00] := by
  decide +kernel

/-- B2 to B15 and B17: the abort each records, no byte written. -/
theorem test_multiply_aborts :
    (([(0x0, 0x2020, 0x1000, .nullA 0), (0x2001, 0x2020, 0x1000, .misalignedA 0x2001),
      (0x3000, 0x2020, 0x1000, .unreadableA 0x3000), (0x2028, 0x2020, 0x1000, .unreadableA 0x2028),
      (0x2000, 0x0, 0x1000, .nullB 0), (0x2000, 0x2024, 0x1000, .misalignedB 0x2024),
      (0x2000, 0x3000, 0x1000, .unreadableB 0x3000), (0x2000, 0x2020, 0x0, .nullOut 0),
      (0x2000, 0x2020, 0x1001, .misalignedOut 0x1001), (0x2000, 0x2020, 0x2000, .unwritableOut 0x2000),
      (0x2000, 0x2020, 0x10f8, .unwritableOut 0x10f8), (0x0, 0x0, 0x0, .nullA 0),
      (0x2001, 0x0, 0x2000, .misalignedA 0x2001), (0x2000, 0x3000, 0x0, .unreadableB 0x3000),
      (0xffffffffffffffe8, 0x2020, 0x1000, .unreadableA 0xffffffffffffffe8)] : List (Nat × Nat × Nat × Abort)).all
        fun v => abortAfter (multiply vectors v.1 v.2.1 v.2.2.1 launch) == some v.2.2.2) = true := by decide +kernel

/-- B19 to B21 under REFUSE. -/
theorem test_multiply_refuse :
    refusalOfStep (multiply { vectors with aliasOutMode := .REFUSE } 0x1000 0x1000 0x1000 launch) = some (.aliasOut 0x1000) ∧
      refusalOfStep (multiply { vectors with aliasOutMode := .REFUSE } 0x1000 0x2020 0x1010 launch) =
        some (.aliasOut 0x1010) ∧
      bytesAfter (multiply { vectors with aliasOutMode := .REFUSE } 0x2000 0x2000 0x1000 launch) 0x1000 32 =
        some (padded [4]) := by decide +kernel

/-! ## Steps from reset, and the host's lines -/

/-- MULTIPLY as the first instruction after reset: three null pointers, NULL_A (95 B13). -/
theorem test_step_multiply : abortAfter (match step (State.reset.withFetchWord 64 0) with
    | .next t => .next { t with mem := launch.mem }
    | o => o) = some (.nullA 0) := by decide +kernel

/-- DECODE, ENCODE and FMUL as the first instruction after reset, on operand latches holding 0. -/
theorem test_step_stages :
    latchesAfter (step (State.reset.withFetchWord 64 1)) = some { Latches.empty with abuf := some Buf.zero, a := some 0 } ∧
      latchesAfter (step (State.reset.withFetchWord 64 2)) =
        some { Latches.empty with r := some 0, obuf := some Buf.zero } ∧
      (latchesAfter (step (State.reset.withFetchWord 64 3))).map (fun l => (l.a, l.b, l.r.isSome)) =
        some (some 0, some 0, true) := by decide +kernel

/-- After an abort there is no next step (60_exceptions R93). -/
theorem test_step_after_abort :
    (match step (State.reset.withFetchWord 64 0) with
    | .next t => faultOfStep (step t)
    | _ => none) = some (.aborted (.nullA 0)) := by decide +kernel

/-- R59: REPEAT 2 { COPY } is two copies and then the next line; REPEAT 0 is none. -/
theorem test_repeat :
    (Script.rep 2 (.line (.copy 1 2) .done) (.line (.copy 3 4) .done)).actions =
      [.copy 1 2, .copy 1 2, .copy 3 4] ∧
    (Script.rep 2 (.line (.copy 1 2) .done) .done).next =
      some (.copy 1 2, .rep 1 (.line (.copy 1 2) .done) .done) ∧
    (Script.rep 0 (.line (.copy 1 2) .done) (.line (.copy 3 4) .done)).next = some (.copy 3 4, .done) := by decide +kernel

/-- R59, 95 section 3: WRITE ignores Perm, and COPY takes 32 bytes. -/
theorem test_host_lines :
    bytesAfter (hostWrite vectors 0x2001 [9, 8] launch) 0x2000 4 = some [2, 9, 8, 0] ∧
      bytesAfter (hostCopy vectors 0x1000 0x2020 launch) 0x1000 32 = some (padded [3]) ∧
      (match hostMap vectors 0x3000 2 .R launch with
      | .next t => some (t.perm.at 0x2fff, t.perm.at 0x3000, t.perm.at 0x3001, t.perm.at 0x3002)
      | _ => none) = some (.NONE, .R, .R, .NONE) := by decide +kernel

/-- R59: EXPECT compares bytes, and of an abort its code alone. -/
theorem test_expect : expectBytes launch 0x2000 [2, 0] = true ∧ expectBytes launch 0x2000 [2, 1] = false ∧
    expectAborted (raiseAbort (.unwritableOut 0x2000) launch) 9 = true ∧ expectAborted launch 9 = false := by
  decide +kernel

/-- `launch` with two agents whose next actions these are. -/
def agentsOf (x y : HostAction) : State :=
  { launch with agents := [⟨.line x .done, 0, false⟩, ⟨.line y .done, 0, false⟩] }

/-- 95 L3-6: two calls that share an input, and the same where T1's out is 0x2000, so that T1 aborts and accesses
nothing; a write to the shared input breaks the premise, an empty one does not, nor does a read of it; a read of the out
buffer does. -/
theorem test_buffers_exclusive :
    let first := HostAction.call (wordsBytes 8 ⟨0, 0x2000, 0x2000, 0x1000⟩)
    let both := fun y => exclusivePair vectors (agentsOf first y) 0 1 && exclusivePair vectors (agentsOf first y) 1 0
    both (.call (wordsBytes 8 ⟨0, 0x2000, 0x2000, 0x1020⟩)) = true ∧
      both (.call (wordsBytes 8 ⟨0, 0x2000, 0x2000, 0x2000⟩)) = true ∧
      both (.write 0x201f [1]) = false ∧ both (.write 0x201f []) = true ∧ both (.write 0x2020 [1]) = true ∧
      both (.copy 0x3000 0x2000) = true ∧ both (.copy 0x3000 0x1018) = false ∧
      both (.call (wordsBytes 8 ⟨0, 0x1000, 0x2000, 0x1020⟩)) = false := by decide +kernel

/-! ## Witnesses: states and operands that meet the hypotheses of the statements

Each theorem is named after its statement. On this hardware's own configuration ADDR_W is open, from 16 on, so the
addresses lie below 2^16. -/

/-- `launch` without the last 32 addresses: a (2) and b (3) read only, 0x1000..0x10FF read and write. -/
def work : State :=
  { State.reset with
    mem := [(0x2000, 2), (0x2020, 3)]
    perm := rangePerm 0x1000 0x100 .RW ++ rangePerm 0x2000 0x40 .R }

/-- The descriptor of a call with pointers below 2^16. -/
def callOf (a b o : Nat) : List Byte := wordsBytes 8 ⟨0, a, b, o⟩

/-- A caller whose next line is this action. -/
def callerOf (act : HostAction) : Agent := ⟨.line act .done, 0, false⟩

/-- `work` with one caller, whose next line this is and whose turn it is. -/
def caller (act : HostAction) : State := { work with agents := [callerOf act], schedule := [.agent 0] }

/-- `work` with two callers on disjoint buffers, as in 95 L3-6: they share the input at 0x2000. -/
def twoCallers : State :=
  { work with agents := [callerOf (.call (callOf 0x2000 0x2000 0x1000)), callerOf (.call (callOf 0x2000 0x2000 0x1020))] }

/-- A state with every latch written: A and B hold 2^256 - 1, R holds 6. -/
def fullLatches : State :=
  { State.reset with
    latches := ⟨some Buf.zero, some Buf.zero, some (2 ^ 256 - 1), some (2 ^ 256 - 1), some 6, some Buf.zero⟩ }

theorem addr_lt {p : Nat} (h : p < 2 ^ 16) : p < 2 ^ Config.hardware.addrW :=
  lt_of_lt_of_le h (Nat.pow_le_pow_right (by omega) Config.hardware_le_addrW)

theorem admitted_of {s : State} {k : Access} {p : Nat} (h0 : p ≠ 0) (h8 : p % 8 = 0) (hp : p + 31 < 2 ^ 16)
    (hperm : ∀ i < 32, permits k (s.perm.at (p + i)) = true) : Admitted Config.hardware s k p :=
  ⟨h0, h8, (accessible_iff ..).mpr ⟨Nat.le_sub_one_of_lt (addr_lt hp), hperm⟩⟩

/-- Pointers a (0x2000), b (0x2020), out (0x10e0, the last 32 bytes of its range). -/
theorem work_admits : CallAdmitted Config.hardware work 0x2000 0x2020 0x10e0 :=
  ⟨admitted_of (by decide) (by decide) (by decide) (by decide +kernel),
    admitted_of (by decide) (by decide) (by decide) (by decide +kernel),
    admitted_of (by decide) (by decide) (by decide) (by decide +kernel)⟩

theorem call_completes {s : State} {a b o : Nat} (h : CallAdmitted Config.hardware s a b o) :
    ∃ t, exec (.multiply a b o) s = .next t ∧ t.perm = s.perm :=
  ⟨_, multiply_admitted ((admission_admitted_iff ..).mpr ⟨h, fun hr => nomatch hr.1⟩), rfl⟩

theorem decodes_call {d : List Byte} {a b o : Nat} (hd : readWords Config.hardware d = .ok ⟨0, a, b, o⟩)
    (ha : a < 2 ^ 16) (hb : b < 2 ^ 16) (ho : o < 2 ^ 16) :
    decodeDescriptor Config.hardware d = .ok (.multiply a b o) := by
  unfold decodeDescriptor
  rw [hd]
  simp [decodeCallWords, pointerField, Nat.mod_eq_of_lt (addr_lt ha), Nat.mod_eq_of_lt (addr_lt hb),
    Nat.mod_eq_of_lt (addr_lt ho)]

theorem decodes_first : decodeDescriptor Config.hardware (callOf 0x2000 0x2000 0x1000) =
    .ok (.multiply 0x2000 0x2000 0x1000) := decodes_call (by rfl) (by decide) (by decide) (by decide)

theorem decodes_second : decodeDescriptor Config.hardware (callOf 0x2000 0x2000 0x1020) =
    .ok (.multiply 0x2000 0x2000 0x1020) := decodes_call (by rfl) (by decide) (by decide) (by decide)

theorem tiny_isModulus : Config.IsModulus tiny.modulus := ⟨by norm_num [tiny], by decide, by decide⟩

/-! ### Reset, steps and encoding -/

theorem witness_PlatformResetKeepsCallerMemory : ∃ (s : State) (rest : List Event),
    s.abort = none ∧ s.schedule = .reset :: rest := ⟨{ fullLatches with schedule := [.reset] }, [], rfl, rfl⟩

/-- R holds 6, which is below every modulus R8 allows, and the step is an ENCODE. -/
theorem witness_StepKeepsInvariant : ∃ s t, Inv Config.hardware s ∧ step s = .next t := by
  have hd : decodeBench Config.hardware (indexOnly 2) = .ok .encode := by rfl
  refine ⟨{ fullLatches with schedule := [.bench (indexOnly 2)] },
    { fullLatches with latches := { fullLatches.latches with obuf := some (encodeVal (6 : U256).toNat) } }, ⟨rfl, rfl, rfl, rfl, fun r h => ?_⟩, ?_⟩
  · have h6 : some (6 : U256) = some r := h
    rw [← Option.some.inj h6]
    exact Nat.lt_of_lt_of_le (by decide) Config.hardwareModulus_isModulus.2.1
  · rw [step_live rfl]
    simp only [fetch, hd, fetched]
    rfl

theorem witness_StepRunsDecodedCall :
    (caller (.call (callOf 0x2000 0x2000 0x1000))).abort = none ∧
      (caller (.call (callOf 0x2000 0x2000 0x1000))).schedule = .agent 0 :: [] ∧
      (caller (.call (callOf 0x2000 0x2000 0x1000))).agents[0]? = some (callerOf (.call (callOf 0x2000 0x2000 0x1000))) ∧
      (callerOf (.call (callOf 0x2000 0x2000 0x1000))).lost = false ∧
      (callerOf (.call (callOf 0x2000 0x2000 0x1000))).program.next = some (.call (callOf 0x2000 0x2000 0x1000), .done) ∧
      decodeDescriptor Config.hardware (callOf 0x2000 0x2000 0x1000) = .ok (.multiply 0x2000 0x2000 0x1000) :=
  ⟨rfl, rfl, rfl, rfl, rfl, decodes_first⟩

theorem witness_StepRunsBenchStage : ∃ (s : State) (rest : List Event), s.abort = none ∧ s.schedule = .bench (indexOnly 3) :: rest ∧
    decodeBench Config.hardware (indexOnly 3) = .ok .fmul :=
  ⟨{ fullLatches with schedule := [.bench (indexOnly 3)] }, [], rfl, rfl, rfl⟩

/-- The clauses at w0 = 1, 3, 4 and 2^64 - 1, for `caller` and for the decoder. -/
theorem witness_CallerCannotRunAStage : ∀ d ∈ [indexOnly 1, indexOnly 3, indexOnly 4, List.replicate 32 0xff],
    d.length = 32 ∧ (caller (.call d)).abort = none ∧ (caller (.call d)).agents[0]? = some (callerOf (.call d)) ∧
      (callerOf (.call d)).lost = false ∧ (callerOf (.call d)).program.next = some (.call d, .done) ∧
      (1 ≤ descWord 8 0 d ∧ descWord 8 0 d ≤ 3 ∨ 4 ≤ descWord 8 0 d) := by decide +kernel

theorem witness_AbortIsSticky : (raiseAbort (.unwritableOut 0x2000) work).abort = some (.unwritableOut 0x2000) := rfl

theorem witness_DecodeOfEncodeIsIdentity : tiny.Admissible ∧
    wellFormed tiny (.multiply (2 ^ 64 - 1) 0 1) = true ∧ wellFormed tiny (.decode .b) = true :=
  ⟨⟨tiny_isModulus, by decide, by decide⟩, by decide, rfl⟩

theorem witness_EncodeOfDecodeIsIdentity : vectors.addrW = 8 * vectors.descWordBytes ∧
    decodeOperation vectors (indexOnly 2) = .ok .encode ∧
      decodeOperation vectors (callOf 0x2000 0x2000 0x1000) = .ok (.multiply 0x2000 0x2000 0x1000) := ⟨rfl, rfl, rfl⟩

theorem witness_DescriptorDecoderIsTotal : (indexOnly 0).length = 32 ∧ descWord 8 0 (indexOnly 0) = 0 ∧
    (indexOnly 1).length = 32 ∧ descWord 8 0 (indexOnly 1) = 1 ∧ (indexOnly 3).length = 32 ∧
    descWord 8 0 (indexOnly 3) = 3 ∧ (indexOnly 4).length = 32 ∧ descWord 8 0 (indexOnly 4) = 4 := by decide +kernel

theorem witness_KnownDescriptorsDecode : vectors.addrW = 64 ∧ vectors.descWordBytes = 8 := ⟨rfl, rfl⟩

/-! ### The stages -/

theorem witness_DecodeAfterEncode : 2 ^ 256 - 1 < 2 ^ 256 := by decide

theorem witness_CodecIsBijective : decodeBuf (Buf.ofBytes (List.replicate 32 0xff)) = 2 ^ 256 - 1 := by decide +kernel

theorem witness_DecodeLatchesLittleEndianValue :
    fullLatches.latches.inputBuf .a = some Buf.zero ∧ fullLatches.latches.inputBuf .b = some Buf.zero := ⟨rfl, rfl⟩

theorem witness_EncodeLatchesBytes : fullLatches.latches.r = some 6 := rfl

theorem witness_StageFaultsOnEmptyLatch : State.reset.latches.abuf = none ∧ State.reset.latches.bbuf = none ∧
    State.reset.latches.r = none ∧ State.reset.latches.a = none ∧
    ∃ s : State, s.latches.a ≠ none ∧ s.latches.b = none :=
  ⟨rfl, rfl, rfl, rfl, { fullLatches with latches := { Latches.empty with a := some 0 } }, by decide, rfl⟩

theorem witness_StageFrame : (∃ t, exec (.decode .a) fullLatches = .next t) ∧ (∃ t, exec (.decode .b) fullLatches = .next t) ∧
    (∃ t, exec .encode fullLatches = .next t) ∧ ∃ t, exec .fmul fullLatches = .next t := ⟨⟨_, rfl⟩, ⟨_, rfl⟩, ⟨_, rfl⟩, ⟨_, rfl⟩⟩

theorem witness_FmulLatchesProduct : fullLatches.latches.a = some (2 ^ 256 - 1) ∧ fullLatches.latches.b = some (2 ^ 256 - 1) :=
  ⟨rfl, rfl⟩

/-- REDUCE at the largest operands, and ANY at the largest canonical ones. -/
theorem witness_FmulIsExactRemainder : Config.IsModulus tiny.modulus ∧ 2 ^ 256 - 1 < 2 ^ 256 ∧
    tiny.noncanonMode = .REDUCE ∧ Config.IsModulus { tiny with noncanonMode := .ANY }.modulus ∧ 6 < tiny.modulus :=
  ⟨tiny_isModulus, by decide, rfl, tiny_isModulus, by decide⟩

theorem witness_FmulResultIsCanonical : Config.IsModulus { tiny with noncanonMode := .ANY }.modulus := tiny_isModulus

theorem witness_FmulFieldLaws : Config.IsModulus tiny.modulus ∧ 0 < tiny.modulus ∧ 6 < tiny.modulus ∧
    tiny.noncanonMode = .REDUCE ∧ fmul tiny 0 6 0 = 0 := ⟨tiny_isModulus, by decide, by decide, rfl, by decide⟩

theorem witness_FmulCornerCases : Config.IsModulus tiny.modulus ∧ 6 < tiny.modulus ∧ tiny.noncanonMode = .REDUCE ∧
    { tiny with noncanonMode := .ANY }.noncanonMode = .ANY ∧ tiny.modulus ≤ 7 := ⟨tiny_isModulus, by decide, rfl, rfl, by decide⟩

/-! ### A call that completes -/

theorem witness_MultiplyWritesProduct : CallAdmitted Config.hardware work 0x2000 0x2020 0x10e0 := work_admits

theorem witness_OutputBufferHoldsCanonicalProduct :
    work.mem.wf = true ∧ CallAdmitted Config.hardware work 0x2000 0x2020 0x10e0 := ⟨rfl, work_admits⟩

/-- A call that is admitted, and one that is not. -/
theorem witness_MultiplyFrame : (∃ t, exec (.multiply 0x2000 0x2020 0x10e0) work = .next t) ∧
    (∃ t, exec (.multiply 0 0x2020 0x10e0) work = .next t) ∧
    CallAdmitted Config.hardware work 0x2000 0x2020 0x10e0 ∧ ¬CallAdmitted Config.hardware work 0 0x2020 0x10e0 :=
  ⟨(call_completes work_admits).imp fun _ h => h.1, ⟨_, rfl⟩, work_admits, fun h => h.1.1 rfl⟩

/-- `work` with 0xff in the last byte of the out buffer. -/
def dirtyOut : State := { work with mem := [(0x10ff, 0xff), (0x2000, 2), (0x2020, 3)] }

/-- The last byte of the out buffer is 0xff before and 00 after: the product is 6 for every modulus from 7 on. -/
theorem witness_OnlyTheOutputBufferIsWritten :
    ∃ t, exec (.multiply 0x2000 0x2020 0x10e0) dirtyOut = .next t ∧ t.mem.byteAt 0x10ff ≠ dirtyOut.mem.byteAt 0x10ff := by
  have hc : CallAdmitted Config.hardware dirtyOut 0x2000 0x2020 0x10e0 :=
    ⟨(admitted_congr rfl).mpr work_admits.1, (admitted_congr rfl).mpr work_admits.2.1, (admitted_congr rfl).mpr work_admits.2.2⟩
  refine ⟨_, multiply_admitted ((admission_admitted_iff ..).mpr ⟨hc, fun hr => nomatch hr.1⟩), ?_⟩
  have hp : productOf Config.hardware (dirtyOut.bufAt 0x2000) (dirtyOut.bufAt 0x2020) dirtyOut.draws = 6 := by
    have ha : decodeBuf (dirtyOut.bufAt 0x2000) = 2 := by decide +kernel
    have hb : decodeBuf (dirtyOut.bufAt 0x2020) = 3 := by decide +kernel
    have h7 : 7 ≤ Config.hardware.modulus := Config.hardwareModulus_isModulus.2.1
    unfold productOf fmul bothCanonical
    rw [ha, hb, decide_eq_true (show 2 < Config.hardware.modulus by omega),
      decide_eq_true (show 3 < Config.hardware.modulus by omega)]
    exact Nat.mod_eq_of_lt (by omega)
  rw [hp]
  show Memory.byteAt (dirtyOut.mem.putBytes 0x10e0 _) 0x10ff ≠ _
  decide +kernel

/-- The same input bytes at other addresses, beside other memory. -/
def elsewhere : State := { work with mem := [(0x1000, 2), (0x1020, 3), (0x1040, 0xff)] }

theorem elsewhere_admits : CallAdmitted Config.hardware elsewhere 0x1000 0x1020 0x1040 :=
  ⟨admitted_of (by decide) (by decide) (by decide) (by decide +kernel),
    admitted_of (by decide) (by decide) (by decide) (by decide +kernel),
    admitted_of (by decide) (by decide) (by decide) (by decide +kernel)⟩

theorem witness_OutputDependsOnInputBytesAlone : work.mem.wf = true ∧ elsewhere.mem.wf = true ∧
    CallAdmitted Config.hardware work 0x2000 0x2020 0x10e0 ∧ CallAdmitted Config.hardware elsewhere 0x1000 0x1020 0x1040 ∧
    (∀ i < 32, work.mem.byteAt (0x2000 + i) = elsewhere.mem.byteAt (0x1000 + i)) ∧
    (∀ i < 32, work.mem.byteAt (0x2020 + i) = elsewhere.mem.byteAt (0x1020 + i)) ∧
    (∃ t, exec (.multiply 0x2000 0x2020 0x10e0) work = .next t) ∧
    ∃ t, exec (.multiply 0x1000 0x1020 0x1040) elsewhere = .next t :=
  ⟨rfl, rfl, work_admits, elsewhere_admits, by decide +kernel, by decide +kernel,
    (call_completes work_admits).imp fun _ h => h.1, (call_completes elsewhere_admits).imp fun _ h => h.1⟩

/-- Out right after b: adjacent, not overlapping. -/
theorem witness_RepeatedCallChangesNothing : elsewhere.mem.wf = true ∧
    CallAdmitted Config.hardware elsewhere 0x1000 0x1020 0x1040 ∧ outOverlaps 0x1000 0x1020 0x1040 = false ∧
    ∃ t, exec (.multiply 0x1000 0x1020 0x1040) elsewhere = .next t :=
  ⟨rfl, elsewhere_admits, by decide, (call_completes elsewhere_admits).imp fun _ h => h.1⟩

/-- Admission on the concrete configurations. -/
theorem admitted_tiny {c : Config} (hc : c.addrW = 64) (h8 : c.align = 8) {s : State} {k : Access} {p : Nat} (h0 : p ≠ 0)
    (ha : p % 8 = 0) (hp : p + 31 < 2 ^ 64) (hperm : ∀ i < 32, permits k (s.perm.at (p + i)) = true) :
    Admitted c s k p :=
  ⟨h0, by rw [h8]; exact ha, (accessible_iff ..).mpr ⟨by rw [hc]; omega, hperm⟩⟩

/-- Out overlapping b by one aligned step, and by 31 bytes more than none (0x1038 with 0x1020), and not at all. -/
theorem witness_OverlappingBuffers : Config.IsModulus tiny.modulus ∧ work.mem.wf = true ∧
    CallAdmitted { tiny with aliasOutMode := .REFUSE } work 0x1000 0x1020 0x1038 ∧
    outOverlaps 0x1000 0x1020 0x1038 = true ∧ CallAdmitted tiny work 0x1000 0x1020 0x1038 ∧
    tiny.aliasOutMode = .DEFINED ∧ CallAdmitted { tiny with aliasOutMode := .REFUSE } work 0x1000 0x1020 0x1040 ∧
    outOverlaps 0x1000 0x1020 0x1040 = false := by
  have h : ∀ c : Config, c.addrW = 64 → c.align = 8 → ∀ p ∈ [0x1000, 0x1020, 0x1038, 0x1040], ∀ k, Admitted c work k p := by
    intro c hc h8 p hp k
    refine admitted_tiny hc h8 ?_ ?_ ?_ ?_
    · revert p; decide
    · revert p; decide
    · revert p; decide
    · cases k <;> (revert p; decide +kernel)
  exact ⟨tiny_isModulus, rfl, ⟨h _ rfl rfl _ (by decide) _, h _ rfl rfl _ (by decide) _, h _ rfl rfl _ (by decide) _⟩,
    by decide, ⟨h _ rfl rfl _ (by decide) _, h _ rfl rfl _ (by decide) _, h _ rfl rfl _ (by decide) _⟩, rfl,
    ⟨h _ rfl rfl _ (by decide) _, h _ rfl rfl _ (by decide) _, h _ rfl rfl _ (by decide) _⟩, by decide⟩

/-- a × b to 0x10e0, then 0x10e0 × a to 0x1000. -/
theorem witness_ChainedCallSeesProduct : ∃ t u, work.mem.wf = true ∧
    CallAdmitted Config.hardware work 0x2000 0x2020 0x10e0 ∧ exec (.multiply 0x2000 0x2020 0x10e0) work = .next t ∧
    CallAdmitted Config.hardware t 0x10e0 0x2000 0x1000 ∧ exec (.multiply 0x10e0 0x2000 0x1000) t = .next u := by
  obtain ⟨t, ht, hp⟩ := call_completes work_admits
  have h : CallAdmitted Config.hardware t 0x10e0 0x2000 0x1000 :=
    ⟨(admitted_congr hp).mpr (admitted_of (by decide) (by decide) (by decide) (by decide +kernel)),
      (admitted_congr hp).mpr work_admits.1,
      (admitted_congr hp).mpr (admitted_of (by decide) (by decide) (by decide) (by decide +kernel))⟩
  obtain ⟨u, hu, -⟩ := call_completes h
  exact ⟨t, u, rfl, work_admits, ht, h, hu⟩

/-- The memory of R90, with 0xff in the out buffer before. -/
def endToEnd : State :=
  { State.reset with
    mem := [(0x1000, 2), (0x1020, 3), (0x105f, 0xff)]
    perm := rangePerm 0x1000 0x40 .R ++ rangePerm 0x1040 0x20 .RW }

theorem witness_EndToEndExample : Config.IsModulus tiny.modulus ∧ tiny.addrW = 64 ∧ tiny.align = 8 ∧
    endToEnd.mem.wf = true ∧ (∀ x, 0x1000 ≤ x → x < 0x1040 → endToEnd.perm.at x = .R) ∧
    (∀ x, 0x1040 ≤ x → x < 0x1060 → endToEnd.perm.at x = .RW) ∧
    endToEnd.mem.bytesAt 0x1000 32 = 0x02 :: List.replicate 31 0 ∧
    endToEnd.mem.bytesAt 0x1020 32 = 0x03 :: List.replicate 31 0 := by
  refine ⟨tiny_isModulus, rfl, rfl, rfl, fun x h1 h2 => ?_, fun x h1 h2 => ?_, by decide +kernel, by decide +kernel⟩
  · obtain ⟨i, rfl⟩ := Nat.exists_eq_add_of_le h1
    have h : ∀ i < 0x40, endToEnd.perm.at (0x1000 + i) = .R := by decide +kernel
    exact h i (by omega)
  · obtain ⟨i, rfl⟩ := Nat.exists_eq_add_of_le h1
    have h : ∀ i < 0x20, endToEnd.perm.at (0x1040 + i) = .RW := by decide +kernel
    exact h i (by omega)

/-! ### A call that aborts -/

theorem unreachable_of {c : Config} {s : State} {k : Access} {p : Nat} (i : Nat) (hi : i < 32)
    (h : permits k (s.perm.at (p + i)) = false) : Unreachable c s k p := .inr ⟨i, hi, h⟩

/-- The clauses in their order; the access clauses at buffers that pass the end of a range by their last 8 bytes. -/
theorem witness_MultiplyAborts : let c := Config.hardware
    0x2001 % c.align ≠ 0 ∧ 0x2028 % c.align = 0 ∧ Unreachable c work .READ 0x2028 ∧ Admitted c work .READ 0x2000 ∧
    0x2024 % c.align ≠ 0 ∧ 0x3000 % c.align = 0 ∧ Unreachable c work .READ 0x3000 ∧ Admitted c work .READ 0x2020 ∧
    0x1001 % c.align ≠ 0 ∧ 0x10e8 % c.align = 0 ∧ Unreachable c work .WRITE 0x10e8 ∧
    Unreachable c work .WRITE 0x2000 ∧ CallAdmitted c work 0x2000 0x2020 0x10e0 :=
  ⟨by decide, by decide, unreachable_of 24 (by decide) (by decide +kernel), work_admits.1, by decide, by decide,
    unreachable_of 0 (by decide) (by decide +kernel), work_admits.2.1, by decide, by decide,
    unreachable_of 24 (by decide) (by decide +kernel), unreachable_of 0 (by decide) (by decide +kernel), work_admits⟩

/-- Code 1 with every pointer null (95 B13), code 6 with code 7 (B15), code 9 alone (B11), and no code (B1). -/
theorem witness_AbortReportsSmallestFailingCode :
    (causeHolds vectors launch 0 0 0 1 ∧ ∀ n < 1, ¬causeHolds vectors launch 0 0 0 n) ∧
    (causeHolds vectors launch 0x2000 0x3000 0 6 ∧ ∀ n < 6, ¬causeHolds vectors launch 0x2000 0x3000 0 n) ∧
    (causeHolds vectors launch 0x2000 0x2020 0x2000 9 ∧ ∀ n < 9, ¬causeHolds vectors launch 0x2000 0x2020 0x2000 n) ∧
    ∀ n, ¬causeHolds vectors launch 0x2000 0x2020 0x1000 n := by
  have a : ¬Unreachable vectors launch .READ 0x2000 := by unfold Unreachable; decide +kernel
  have b : ¬Unreachable vectors launch .READ 0x2020 := by unfold Unreachable; decide +kernel
  have o : ¬Unreachable vectors launch .WRITE 0x1000 := by unfold Unreachable; decide +kernel
  refine ⟨⟨rfl, fun n hn => ?_⟩, ⟨unreachable_of 0 (by decide) (by decide +kernel), fun n hn => ?_⟩,
    ⟨unreachable_of 0 (by decide) (by decide +kernel), fun n hn => ?_⟩, fun n => ?_⟩
  · interval_cases n; exact id
  · interval_cases n <;> simp [causeHolds, a] <;> decide
  · interval_cases n <;> simp [causeHolds, a, b] <;> decide
  · by_cases hn : n < 10
    · interval_cases n <;> simp [causeHolds, a, b, o] <;> decide
    · unfold causeHolds
      split <;> first | omega | exact id

theorem witness_AbortEffect : validate Config.hardware work 0 0x2020 0x1000 = some (.nullA 0) := rfl

theorem witness_ValidationReadsNoMemory : validate Config.hardware work 0 0x2020 0x1000 = some (.nullA 0) ∧
    CallAdmitted Config.hardware work 0x2000 0x2020 0x10e0 := ⟨rfl, work_admits⟩

theorem witness_OnlyValidationAborts :
    ∃ t, exec (.multiply 0 0x2020 0x1000) work = .next t ∧ t.abort ≠ work.abort := ⟨_, rfl, by decide⟩

/-- The largest p for which p passes the top unaligned, and the largest aligned one; the inputs are in range. -/
theorem witness_BufferNeverWraps : 2 ^ Config.hardware.addrW - 31 + 31 > 2 ^ Config.hardware.addrW - 1 ∧
    2 ^ Config.hardware.addrW - 24 + 31 > 2 ^ Config.hardware.addrW - 1 ∧
    (2 ^ Config.hardware.addrW - 24) % Config.hardware.align = 0 ∧
    Admitted Config.hardware work .READ 0x2000 ∧ Admitted Config.hardware work .READ 0x2020 := by
  have hpos : 2 ^ 16 ≤ 2 ^ Config.hardware.addrW := Nat.pow_le_pow_right (by omega) Config.hardware_le_addrW
  obtain ⟨m, hm⟩ : 8 ∣ 2 ^ Config.hardware.addrW :=
    Nat.pow_dvd_pow 2 (show 3 ≤ Config.hardware.addrW from le_trans (by decide) Config.hardware_le_addrW)
  refine ⟨by omega, by omega, ?_, work_admits.1, work_admits.2.1⟩
  show (2 ^ Config.hardware.addrW - 24) % 8 = 0
  omega

theorem witness_AlignOneRemovesTheCheck : { vectors with align := 1 }.align = 1 := rfl

/-! ### Accesses, the host, resets and several callers -/

theorem witness_PermissionRule : 0 < 2 ^ vectors.addrW ∧ 2 ^ 64 - 1 < 2 ^ vectors.addrW ∧
    launch.allows vectors .READ 0x2000 = true ∧ launch.allows vectors .WRITE 0x10ff = true ∧
    launch.allows vectors .WRITE 0x2000 = false := by decide +kernel

theorem witness_MemWriteThenMemRead : launch.mem.wf = true ∧ launch.allows vectors .WRITE 0x10ff = true ∧
    launch.allows vectors .WRITE 0x1100 = false := by decide +kernel

theorem witness_RepeatRunsItsBodyNTimes : Script.next (.rep 2 .done (.line (.copy 1 2) .done)) = some (.copy 1 2, .done) := rfl

theorem witness_HostLinesSetMemAndPerm :
    (∀ act ∈ [HostAction.map 0xfff0 16 .R, .write 0xffff [7], .copy 0xffe0 0], (caller act).abort = none ∧
      (caller act).schedule = [.agent 0] ∧ (caller act).agents[0]? = some (callerOf act) ∧ (callerOf act).lost = false ∧
      (callerOf act).program.next = some (act, .done)) ∧
    work.mem.wf = true ∧ work.perm.wf = true ∧ 0xfff0 + 16 ≤ 2 ^ Config.hardware.addrW :=
  ⟨by decide +kernel, rfl, by decide +kernel,
    le_trans (by decide : 0xfff0 + 16 ≤ 2 ^ 16) (Nat.pow_le_pow_right (by omega) Config.hardware_le_addrW)⟩

theorem first_admitted : CallAdmitted Config.hardware twoCallers 0x2000 0x2000 0x1000 :=
  ⟨admitted_of (by decide) (by decide) (by decide) (by decide +kernel),
    admitted_of (by decide) (by decide) (by decide) (by decide +kernel),
    admitted_of (by decide) (by decide) (by decide) (by decide +kernel)⟩

theorem second_admitted : CallAdmitted Config.hardware twoCallers 0x2000 0x2000 0x1020 :=
  ⟨first_admitted.1, first_admitted.2.1, admitted_of (by decide) (by decide) (by decide) (by decide +kernel)⟩

theorem witness_ResetDuringCall : ∃ s : State, s.abort = none ∧ s.mem.wf = true ∧ s.schedule = .resetDuring 0 :: [] ∧
    s.agents[0]? = some (callerOf (.call (callOf 0x2000 0x2000 0x1000))) ∧
    (callerOf (.call (callOf 0x2000 0x2000 0x1000))).program.next = some (.call (callOf 0x2000 0x2000 0x1000), .done) ∧
    decodeDescriptor Config.hardware (callOf 0x2000 0x2000 0x1000) = .ok (.multiply 0x2000 0x2000 0x1000) ∧
    CallAdmitted Config.hardware s 0x2000 0x2000 0x1000 :=
  ⟨{ twoCallers with schedule := [.resetDuring 0] }, rfl, rfl, rfl, rfl, rfl, decodes_first,
    (admitted_congr rfl).mpr first_admitted.1, (admitted_congr rfl).mpr first_admitted.2.1,
    (admitted_congr rfl).mpr first_admitted.2.2⟩

theorem accessPtrs_of {s : State} {d : List Byte} {a b o : Nat}
    (hd : decodeDescriptor Config.hardware d = .ok (.multiply a b o)) (h : CallAdmitted Config.hardware s a b o) :
    accessPtrs Config.hardware s (.call d) = some (a, b, o) := by
  have hadm : admission Config.hardware s a b o = .admitted :=
    (admission_admitted_iff ..).mpr ⟨h, fun hr => nomatch hr.1⟩
  simp only [accessPtrs, callPtrs, hd, hadm, if_true]

theorem twoCallers_exclusive : BuffersExclusive Config.hardware twoCallers := by
  have h0 : twoCallers.nextAction 0 = some (.call (callOf 0x2000 0x2000 0x1000)) := rfl
  have h1 : twoCallers.nextAction 1 = some (.call (callOf 0x2000 0x2000 0x1020)) := rfl
  have p0 : accessPtrs Config.hardware twoCallers (.call (callOf 0x2000 0x2000 0x1000)) = some (0x2000, 0x2000, 0x1000) :=
    accessPtrs_of decodes_first first_admitted
  have p1 : accessPtrs Config.hardware twoCallers (.call (callOf 0x2000 0x2000 0x1020)) = some (0x2000, 0x2000, 0x1020) :=
    accessPtrs_of decodes_second second_admitted
  intro j k hj hk hne
  have hj : j < 2 := hj
  have hk : k < 2 := hk
  interval_cases j <;> interval_cases k <;> first
    | exact absurd rfl hne
    | simp [exclusivePair, h0, h1, p0, p1, mayOverlapInTime, writeRanges, readRanges, clearOf, bufBytes]

theorem witness_ExclusiveCallsCommute : twoCallers.abort = none ∧ twoCallers.mem.wf = true ∧
    BuffersExclusive Config.hardware twoCallers ∧
    twoCallers.agents[0]? = some (callerOf (.call (callOf 0x2000 0x2000 0x1000))) ∧
    twoCallers.agents[1]? = some (callerOf (.call (callOf 0x2000 0x2000 0x1020))) ∧
    decodeDescriptor Config.hardware (callOf 0x2000 0x2000 0x1000) = .ok (.multiply 0x2000 0x2000 0x1000) ∧
    decodeDescriptor Config.hardware (callOf 0x2000 0x2000 0x1020) = .ok (.multiply 0x2000 0x2000 0x1020) ∧
    CallAdmitted Config.hardware twoCallers 0x2000 0x2000 0x1000 ∧
    CallAdmitted Config.hardware twoCallers 0x2000 0x2000 0x1020 :=
  ⟨rfl, rfl, twoCallers_exclusive, rfl, rfl, decodes_first, decodes_second, first_admitted, second_admitted⟩

end Sys2Proof.Tests
end

/-! State: the reset state, the end of a run, what an instruction may write, and the invariant every step keeps
(spec 10_state R19 to R26). -/

namespace Sys2Proof.Machine

/-! ## The arms of the dispatch -/

@[simp] theorem exec_multiply (a b o : Nat) (s : State) :
    exec (.multiply a b o) s = multiply Config.hardware a b o s := rfl
@[simp] theorem exec_decode (side : Side) (s : State) : exec (.decode side) s = decodeStage side s := rfl
@[simp] theorem exec_encode (s : State) : exec .encode s = encodeStage s := rfl
@[simp] theorem exec_fmul (s : State) : exec .fmul s = fmulStage Config.hardware s := rfl

/-! ## What a stage answers: a fault on an empty latch, else its result latch alone -/

theorem decodeStage_of_none {side : Side} {s : State} (h : s.latches.inputBuf side = none) :
    decodeStage side s = .fault (.emptyLatch (bufLatch side)) := by
  simp [decodeStage, h]

theorem decodeStage_of_some {side : Side} {s : State} {buf : Buf} (h : s.latches.inputBuf side = some buf) :
    decodeStage side s =
      .next { s with latches := s.latches.setOperand side (BitVec.ofNat 256 (decodeBuf buf)) } := by
  simp [decodeStage, h]

theorem encodeStage_of_none {s : State} (h : s.latches.r = none) : encodeStage s = .fault (.emptyLatch .R) := by
  simp [encodeStage, h]

theorem encodeStage_of_some {s : State} {r : U256} (h : s.latches.r = some r) :
    encodeStage s = .next { s with latches := { s.latches with obuf := some (encodeVal r.toNat) } } := by
  simp [encodeStage, h]

theorem fmulStage_of_a_none (c : Config) {s : State} (h : s.latches.a = none) :
    fmulStage c s = .fault (.emptyLatch .A) := by
  simp [fmulStage, h]

theorem fmulStage_of_b_none (c : Config) {s : State} {a : U256} (ha : s.latches.a = some a)
    (hb : s.latches.b = none) : fmulStage c s = .fault (.emptyLatch .B) := by
  simp [fmulStage, ha, hb]

theorem fmulStage_of_some (c : Config) {s : State} {a b : U256} (ha : s.latches.a = some a)
    (hb : s.latches.b = some b) :
    fmulStage c s = .next { s with
      latches := { s.latches with r := some (BitVec.ofNat 256 (fmul c a.toNat b.toNat s.draws)) }
      draws := if usesDraw c a.toNat b.toNat then s.draws + 1 else s.draws } := by
  simp [fmulStage, ha, hb]

/-- DECODE answers a next state only by latching its buffer's value. -/
theorem decodeStage_next {side : Side} {s t : State} (h : decodeStage side s = .next t) :
    ∃ buf, s.latches.inputBuf side = some buf ∧
      t = { s with latches := s.latches.setOperand side (BitVec.ofNat 256 (decodeBuf buf)) } := by
  cases hb : s.latches.inputBuf side with
  | none => rw [decodeStage_of_none hb] at h; cases h
  | some buf => rw [decodeStage_of_some hb] at h; exact ⟨buf, rfl, (next_inj h).symm⟩

/-- ENCODE answers a next state only by latching the bytes of R. -/
theorem encodeStage_next {s t : State} (h : encodeStage s = .next t) :
    ∃ r, s.latches.r = some r ∧
      t = { s with latches := { s.latches with obuf := some (encodeVal r.toNat) } } := by
  cases hr : s.latches.r with
  | none => rw [encodeStage_of_none hr] at h; cases h
  | some r => rw [encodeStage_of_some hr] at h; exact ⟨r, rfl, (next_inj h).symm⟩

/-- FMUL answers a next state only by latching its result and counting the draw it took. -/
theorem fmulStage_next {c : Config} {s t : State} (h : fmulStage c s = .next t) :
    ∃ a b, s.latches.a = some a ∧ s.latches.b = some b ∧
      t = { s with
        latches := { s.latches with r := some (BitVec.ofNat 256 (fmul c a.toNat b.toNat s.draws)) }
        draws := if usesDraw c a.toNat b.toNat then s.draws + 1 else s.draws } := by
  cases ha : s.latches.a with
  | none => rw [fmulStage_of_a_none c ha] at h; cases h
  | some a =>
    cases hb : s.latches.b with
    | none => rw [fmulStage_of_b_none c ha hb] at h; cases h
    | some b => rw [fmulStage_of_some c ha hb] at h; exact ⟨a, b, rfl, rfl, (next_inj h).symm⟩

@[simp] theorem setOperand_r (l : Latches) (side : Side) (v : U256) : (l.setOperand side v).r = l.r := by
  cases side <;> rfl

/-- Settles O20: each clause is the stage's own equation for that empty latch. -/
theorem stageFaultsOnEmptyLatch : Obligations.StageFaultsOnEmptyLatch := by
  unfold Obligations.StageFaultsOnEmptyLatch
  intro s
  refine ⟨fun h => decodeStage_of_none (side := .a) h, fun h => decodeStage_of_none (side := .b) h,
    encodeStage_of_none, fmulStage_of_a_none _, fun ha hb => ?_⟩
  obtain ⟨a, ha⟩ := Option.ne_none_iff_exists'.mp ha
  exact fmulStage_of_b_none _ ha hb

/-! ## FMUL and the call on this hardware -/

theorem fmul_lt {c : Config} (hc : 0 < c.modulus) (a b n : Nat) : fmul c a b n < c.modulus := by
  obtain ⟨m, hm⟩ := fmul_is_remainder c a b n
  rw [hm]
  exact Nat.mod_lt _ hc

theorem fmul_of_reduce {c : Config} (hc : c.noncanonMode = .REDUCE) (a b n : Nat) :
    fmul c a b n = a * b % c.modulus := by
  simp [fmul, hc]

theorem usesDraw_of_reduce {c : Config} (hc : c.noncanonMode = .REDUCE) (a b : Nat) : usesDraw c a b = false := by
  simp [usesDraw, hc]

theorem hardware_modulus_pos : 0 < Config.hardware.modulus :=
  lt_of_lt_of_le (by decide) Config.hardware_admissible.modulus.2.1

/-- Under DEFINED no admitted call is refused, so on this hardware admission is validation (42_ffi R83). -/
theorem hardware_admission_admitted_iff (s : State) (a b o : Nat) :
    admission Config.hardware s a b o = .admitted ↔ CallAdmitted Config.hardware s a b o :=
  (admission_admitted_iff ..).trans (and_iff_left fun h => nomatch h.1)

/-- The call on this hardware: ENCODE of the product modulo P goes to the out buffer, and no draw is taken (R78). -/
theorem multiply_hardware_of_admitted {s : State} {a b o : Nat} (h : CallAdmitted Config.hardware s a b o) :
    multiply Config.hardware a b o s = .next { s with
      mem := s.mem.putBytes o
        (encodeVal (decodeBuf (s.bufAt a) * decodeBuf (s.bufAt b) % Config.hardware.modulus)).bytes
      latches := Latches.empty } := by
  have hlt : decodeBuf (s.bufAt a) * decodeBuf (s.bufAt b) % Config.hardware.modulus < 2 ^ 256 :=
    (Nat.mod_lt _ hardware_modulus_pos).trans Config.hardware_admissible.modulus.2.2
  rw [multiply_admitted ((hardware_admission_admitted_iff s a b o).mpr h), productOf, fmul_of_reduce rfl,
    usesDraw_of_reduce rfl, BitVec.toNat_ofNat, Nat.mod_eq_of_lt hlt]
  rfl

/-! ## Which bytes an instruction can change -/

/-- A stage changes neither memory nor permissions (40_codec R67, 41_multiplier R75). -/
theorem exec_stage_mem_perm {i : Instr} {s t : State} (hi : ∀ a b o, i ≠ .multiply a b o) (h : exec i s = .next t) :
    t.mem = s.mem ∧ t.perm = s.perm := by
  cases i with
  | multiply a b o => exact absurd rfl (hi a b o)
  | decode side => obtain ⟨_, -, rfl⟩ := decodeStage_next h; exact ⟨rfl, rfl⟩
  | encode => obtain ⟨_, -, rfl⟩ := encodeStage_next h; exact ⟨rfl, rfl⟩
  | fmul => obtain ⟨_, _, -, -, rfl⟩ := fmulStage_next h; exact ⟨rfl, rfl⟩

/-- A call never writes Perm, and a byte it changes lies in its out buffer, of a call that was admitted. -/
theorem multiply_writes_out_buffer {c : Config} {s t : State} {a b o : Nat} (h : multiply c a b o s = .next t) :
    t.perm = s.perm ∧
      ∀ x, t.mem.byteAt x ≠ s.mem.byteAt x → CallAdmitted c s a b o ∧ o ≤ x ∧ x < o + 32 := by
  obtain ⟨cause, -, rfl⟩ | hadm := multiply_next_cases h
  · exact ⟨rfl, fun x hx => absurd rfl hx⟩
  · rw [multiply_admitted hadm] at h
    obtain rfl := next_inj h
    refine ⟨rfl, fun x hx => ⟨((admission_admitted_iff c s a b o).mp hadm).1, ?_⟩⟩
    by_contra hout
    refine hx (byteAt_putBytes_outside _ _ _ _ ?_)
    rw [Buf.length_eq]
    omega

/-- Settles O30: a stage changes no byte, and a call only those of its out buffer. -/
theorem onlyTheOutputBufferIsWritten : Obligations.OnlyTheOutputBufferIsWritten := by
  unfold Obligations.OnlyTheOutputBufferIsWritten
  intro i s t h
  by_cases hi : ∃ a b o, i = .multiply a b o
  · obtain ⟨a, b, o, rfl⟩ := hi
    obtain ⟨hperm, hmem⟩ := multiply_writes_out_buffer h
    exact ⟨hperm, fun x hx => ⟨a, b, o, rfl, hmem x hx⟩⟩
  · obtain ⟨hmem, hperm⟩ := exec_stage_mem_perm (fun a b o hab => hi ⟨a, b, o, hab⟩) h
    exact ⟨hperm, fun x hx => absurd (by rw [hmem]) hx⟩

/-! ## The output is a function of the input bytes -/

/-- Buffers whose bytes agree are the same buffer, in whatever state and at whatever address each stands. -/
theorem bufAt_eq_of_bytes {s s' : State} {p p' : Nat}
    (h : ∀ i < 32, s.mem.byteAt (p + i) = s'.mem.byteAt (p' + i)) : s.bufAt p = s'.bufAt p' :=
  Buf.ext_get fun i hi => by rw [bufAt_get _ _ hi, bufAt_get _ _ hi, h i hi]

/-- The out buffer after an admitted call, byte by byte, and no latch left. -/
theorem multiply_hardware_output {s t : State} {a b o : Nat} (hwf : s.mem.wf = true)
    (hadm : CallAdmitted Config.hardware s a b o) (h : multiply Config.hardware a b o s = .next t) :
    (∀ i < 32, t.mem.byteAt (o + i) =
        (encodeVal (decodeBuf (s.bufAt a) * decodeBuf (s.bufAt b) % Config.hardware.modulus)).get i) ∧
      t.latches = Latches.empty := by
  rw [multiply_hardware_of_admitted hadm] at h
  obtain rfl := next_inj h
  exact ⟨fun i hi => byteAt_putBytes_inside hwf _ _ _ (by rwa [Buf.length_eq]), rfl⟩

/-- Settles O32: both out buffers hold ENCODE of the same product. -/
theorem outputDependsOnInputBytesAlone : Obligations.OutputDependsOnInputBytesAlone := by
  unfold Obligations.OutputDependsOnInputBytesAlone
  intro s s' t t' a b o a' b' o' hwf hwf' hadm hadm' ha hb h h'
  obtain ⟨hout, hlatches⟩ := multiply_hardware_output hwf hadm h
  obtain ⟨hout', hlatches'⟩ := multiply_hardware_output hwf' hadm' h'
  refine ⟨fun i hi => ?_, hlatches, hlatches'⟩
  rw [hout i hi, hout' i hi, bufAt_eq_of_bytes ha, bufAt_eq_of_bytes hb]

/-! ## Reset and abort -/

/-- With an abort recorded a step is the fault that names it (60_exceptions R93). -/
theorem step_aborted {s : State} {cause : Abort} (h : s.abort = some cause) : step s = .fault (.aborted cause) := by
  simp [step, h]

/-- With no abort recorded and nothing scheduled a step does nothing (60_exceptions R106). -/
theorem step_idle {s : State} (ha : s.abort = none) (hs : s.schedule = []) : step s = .next s := by
  simp [step_live ha, fetch, hs]

theorem successfulEnd_aborted {s : State} {cause : Abort} (h : s.abort = some cause) : SuccessfulEnd s = false := by
  simp [SuccessfulEnd, h]

theorem callState_aborted {s : State} {cause : Abort} (h : s.abort = some cause) : s.callState = .ABORTED := by
  simp [State.callState, h]

/-- Settles O1: the fields are the reset values, and with nothing scheduled a step is idle. -/
theorem resetLeavesMulmodIdle : Obligations.ResetLeavesMulmodIdle := by
  unfold Obligations.ResetLeavesMulmodIdle
  exact ⟨rfl, rfl, rfl, step_idle rfl rfl⟩

/-- Settles O9: the first step of the run already faults. -/
theorem abortIsSticky : Obligations.AbortIsSticky := by
  unfold Obligations.AbortIsSticky
  intro s cause h
  exact ⟨fun n => run_fault n (step_aborted h), successfulEnd_aborted h, callState_aborted h⟩

/-! ## The invariant under each kind of update -/

theorem listedBelow_iff {α : Type} {n : Nat} {l : List (Nat × α)} :
    listedBelow n l = true ↔ ∀ e ∈ l, e.1 < n := by
  simp [listedBelow]

theorem listedBelow_putBytes {n a : Nat} {m : Memory} {l : List Byte} (hm : listedBelow n m = true)
    (hl : a + l.length ≤ n) : listedBelow n (m.putBytes a l) = true :=
  listedBelow_iff.mpr fun e he => by
    obtain he | he := mem_putBytes he
    · exact listedBelow_iff.mp hm e he
    · omega

theorem listedBelow_putRange {n a k : Nat} {p : PermMap} {x : Perm} (hp : listedBelow n p = true)
    (hk : a + k ≤ n) : listedBelow n (p.putRange a x k) = true :=
  listedBelow_iff.mpr fun e he => by
    obtain he | he := mem_putRange he
    · exact listedBelow_iff.mp hp e he
    · omega

/-- A buffer that passed validation lies inside the address space (20_memory R36). -/
theorem admitted_inSpace {c : Config} {s : State} {k : Access} {p : Nat} (h : Admitted c s k p) :
    p + 32 ≤ 2 ^ c.addrW := by
  obtain ⟨-, -, hacc⟩ := h
  have hr := ((accessible_iff c s k p).mp hacc).1
  have hpos : 0 < 2 ^ c.addrW := Nat.two_pow_pos _
  omega

section updates

variable {c : Config} {s t : State}

/-- The invariant speaks of Mem, Perm and R alone, and a state that holds no other R keeps it. -/
theorem Inv.of_frame (hs : Inv c s) (hm : t.mem = s.mem) (hp : t.perm = s.perm)
    (hr : ∀ r, t.latches.r = some r → s.latches.r = some r) : Inv c t where
  mem_wf := hm ▸ hs.mem_wf
  perm_wf := hp ▸ hs.perm_wf
  mem_below := hm ▸ hs.mem_below
  perm_below := hp ▸ hs.perm_below
  r_canonical r h := hs.r_canonical r (hr r h)

/-- Dropping the latches keeps the invariant, whatever becomes of the rest of the state. -/
theorem Inv.of_no_latches (hs : Inv c s) (hm : t.mem = s.mem) (hp : t.perm = s.perm)
    (hl : t.latches = Latches.empty) : Inv c t :=
  hs.of_frame hm hp fun r hr => by simp [hl] at hr

theorem Inv.raiseAbort (hs : Inv c s) (cause : Abort) : Inv c (raiseAbort cause s) :=
  hs.of_no_latches rfl rfl rfl

theorem Inv.platformReset (hs : Inv c s) : Inv c (platformReset s) :=
  hs.of_no_latches rfl rfl rfl

theorem Inv.putBytes (hs : Inv c s) {a : Nat} {l : List Byte} (h : a + l.length ≤ 2 ^ c.addrW) :
    Inv c { s with mem := s.mem.putBytes a l } :=
  { hs with
    mem_wf := wf_putBytes hs.mem_wf a l
    mem_below := listedBelow_putBytes hs.mem_below h }

theorem Inv.putRange (hs : Inv c s) {a n : Nat} (x : Perm) (h : a + n ≤ 2 ^ c.addrW) :
    Inv c { s with perm := s.perm.putRange a x n } :=
  { hs with
    perm_wf := permWf_putRange hs.perm_wf a x n
    perm_below := listedBelow_putRange hs.perm_below h }

theorem Inv.takeAction (hs : Inv c s) {k : Nat} {act : HostAction} (h : s.takeAction k = some (act, t)) :
    Inv c t := by
  obtain ⟨hm, hp, hl, -⟩ := takeAction_frame h
  exact hs.of_frame hm hp fun r hr => hl ▸ hr

end updates

/-! ## The invariant under each instruction -/

/-- A result of FMUL is still below the modulus when it has been put into R (41_multiplier R72). -/
theorem toNat_fmul_lt {c : Config} (hc : 0 < c.modulus) (a b n : Nat) :
    (BitVec.ofNat 256 (fmul c a b n)).toNat < c.modulus := by
  rw [BitVec.toNat_ofNat]
  exact (Nat.mod_le _ _).trans_lt (fmul_lt hc a b n)

theorem fmulStage_keeps_inv {c : Config} (hc : 0 < c.modulus) {s t : State} (hs : Inv c s)
    (h : fmulStage c s = .next t) : Inv c t := by
  obtain ⟨a, b, -, -, rfl⟩ := fmulStage_next h
  refine { hs with r_canonical := fun r hr => ?_ }
  obtain rfl := Option.some.inj hr
  exact toNat_fmul_lt hc _ _ _

theorem decodeStage_keeps_inv {c : Config} {side : Side} {s t : State} (hs : Inv c s)
    (h : decodeStage side s = .next t) : Inv c t := by
  obtain ⟨buf, -, rfl⟩ := decodeStage_next h
  exact hs.of_frame rfl rfl fun r hr => by simpa using hr

theorem encodeStage_keeps_inv {c : Config} {s t : State} (hs : Inv c s) (h : encodeStage s = .next t) : Inv c t := by
  obtain ⟨r, -, rfl⟩ := encodeStage_next h
  exact hs.of_frame rfl rfl fun _ hr => hr

theorem multiply_keeps_inv {c : Config} {s t : State} {a b o : Nat} (hs : Inv c s)
    (h : multiply c a b o s = .next t) : Inv c t := by
  obtain ⟨cause, -, rfl⟩ | hadm := multiply_next_cases h
  · exact hs.raiseAbort cause
  · obtain ⟨⟨-, -, hout⟩, -⟩ := (admission_admitted_iff c s a b o).mp hadm
    rw [multiply_admitted hadm] at h
    obtain rfl := next_inj h
    exact (hs.putBytes (by rw [Buf.length_eq]; exact admitted_inSpace hout)).of_no_latches rfl rfl rfl

theorem exec_keeps_inv {i : Instr} {s t : State} (hs : Inv Config.hardware s) (h : exec i s = .next t) :
    Inv Config.hardware t := by
  cases i with
  | multiply a b o => exact multiply_keeps_inv hs h
  | decode side => exact decodeStage_keeps_inv hs h
  | encode => exact encodeStage_keeps_inv hs h
  | fmul => exact fmulStage_keeps_inv hardware_modulus_pos hs h

/-! ## The invariant under the events that run no instruction -/

theorem hostMap_keeps_inv {c : Config} {a n : Nat} {x : Perm} {s t : State} (hs : Inv c s)
    (h : hostMap c a n x s = .next t) : Inv c t := by
  unfold hostMap at h
  split at h
  · rename_i hin
    obtain rfl := next_inj h
    exact hs.putRange x (of_decide_eq_true hin)
  · cases h

theorem hostWrite_keeps_inv {c : Config} {a : Nat} {bytes : List Byte} {s t : State} (hs : Inv c s)
    (h : hostWrite c a bytes s = .next t) : Inv c t := by
  unfold hostWrite at h
  split at h
  · rename_i hin
    obtain rfl := next_inj h
    exact hs.putBytes (of_decide_eq_true hin)
  · cases h

theorem hostCopy_keeps_inv {c : Config} {dst src : Nat} {s t : State} (hs : Inv c s)
    (h : hostCopy c dst src s = .next t) : Inv c t := by
  unfold hostCopy at h
  split at h
  · exact hostWrite_keeps_inv hs h
  · cases h

theorem agentTurn_other_keeps_inv {c : Config} {k : Nat} {s t : State} (hs : Inv c s)
    (h : agentTurn c k s = .other (.next t)) : Inv c t := by
  unfold agentTurn at h
  split at h
  · exact next_inj ((Fetched.other.injEq ..).mp h) ▸ hs
  · rename_i d u hu
    cases hd : decodeDescriptor c d with
    | ok i => rw [hd] at h; cases h
    | error e => rw [hd] at h; cases h
  · rename_i hu; exact hostMap_keeps_inv (hs.takeAction hu) ((Fetched.other.injEq ..).mp h)
  · rename_i hu; exact hostWrite_keeps_inv (hs.takeAction hu) ((Fetched.other.injEq ..).mp h)
  · rename_i hu; exact hostCopy_keeps_inv (hs.takeAction hu) ((Fetched.other.injEq ..).mp h)

/-! ## The invariant under a reset during a call -/

/-- A call that passed validation and is cut: of memory only its out buffer changes, each byte kept or replaced by the
result's, and the reset drops the latches (70_reset R109). -/
theorem cutCall_of_admitted {c : Config} {s : State} {a b o : Nat} (k : Nat)
    (h : admission c s a b o = .admitted) :
    cutCall c k (.multiply a b o) s = .next (platformReset (State.loseAgent { latched c a b s with
      mem := s.mem.putBytes o (cutBytes (latched c a b s).draws (s.mem.bytesAt o 32)
        (encodeVal (BitVec.ofNat 256 (productOf c (s.bufAt a) (s.bufAt b) s.draws)).toNat).bytes)
      draws := (latched c a b s).draws + 32 } k)) := by
  obtain ⟨ha, hb, -⟩ := ((admission_admitted_iff c s a b o).mp h).1
  simp only [cutCall, h, computeProduct_admitted ha hb, andThen_next, cutStore, latched_obuf, latched_mem]

theorem cutCall_keeps_inv {c : Config} {k : Nat} {i : Instr} {s t : State} (hs : Inv c s)
    (h : cutCall c k i s = .next t) : Inv c t := by
  cases i with
  | multiply a b o =>
    cases hadm : admission c s a b o with
    | abort cause =>
      simp only [cutCall, hadm] at h
      obtain rfl := next_inj h
      exact hs.of_no_latches (loseAgent_mem s k) (loseAgent_perm s k) rfl
    | refuse => simp only [cutCall, hadm] at h; cases h
    | admitted =>
      obtain ⟨⟨-, -, hout⟩, -⟩ := (admission_admitted_iff c s a b o).mp hadm
      rw [cutCall_of_admitted k hadm] at h
      obtain rfl := next_inj h
      have hlen (n : Nat) (buf : Buf) :
          o + (cutBytes n (s.mem.bytesAt o 32) buf.bytes).length ≤ 2 ^ c.addrW := by
        simpa [Buf.length_eq] using admitted_inSpace hout
      exact (hs.putBytes (hlen _ _)).of_no_latches (loseAgent_mem _ k) (loseAgent_perm _ k) rfl
  | decode side => exact next_inj h ▸ hs.platformReset
  | encode => exact next_inj h ▸ hs.platformReset
  | fmul => exact next_inj h ▸ hs.platformReset

theorem resetDuringCall_keeps_inv {c : Config} {k : Nat} {s t : State} (hs : Inv c s)
    (h : resetDuringCall c k s = .next t) : Inv c t := by
  unfold resetDuringCall at h
  split at h
  · rename_i hu
    split at h
    · exact cutCall_keeps_inv (hs.takeAction hu) h
    · cases h
  all_goals exact next_inj h ▸ hs.platformReset

/-! ## The invariant under a step -/

/-- An event that runs no instruction keeps the invariant. -/
theorem fetch_other_keeps_inv {c : Config} {s t : State} (hs : Inv c s) (h : fetch c s = .other (.next t)) :
    Inv c t := by
  have hrest (rest : List Event) : Inv c { s with schedule := rest } := hs.of_frame rfl rfl fun _ hr => hr
  cases hsch : s.schedule with
  | nil =>
    simp only [fetch, hsch, Fetched.other.injEq] at h
    exact next_inj h ▸ hs
  | cons e rest =>
    cases e with
    | agent k => exact agentTurn_other_keeps_inv (hrest rest) (fetch_agent hsch c ▸ h)
    | reset =>
      simp only [fetch, hsch, Fetched.other.injEq] at h
      exact next_inj h ▸ (hrest rest).platformReset
    | resetDuring k =>
      simp only [fetch, hsch, Fetched.other.injEq] at h
      exact resetDuringCall_keeps_inv (hrest rest) h
    | bench stage =>
      simp only [fetch, hsch] at h
      cases hd : decodeBench c stage with
      | ok i => rw [hd] at h; cases h
      | error e => rw [hd] at h; cases h

/-- The state an instruction runs in meets the invariant when the state before the step does. -/
theorem fetch_run_keeps_inv {c : Config} {s u : State} {i : Instr} (hs : Inv c s) (h : fetch c s = .run i u) :
    Inv c u := by
  obtain ⟨hm, hp, hl, -⟩ := fetch_run_frame h
  exact hs.of_frame hm hp fun r hr => hl ▸ hr

/-- Settles O4: Mem and Perm are empty and R holds no value. -/
theorem resetMeetsInvariant : Obligations.ResetMeetsInvariant where
  mem_wf := rfl
  perm_wf := rfl
  mem_below := rfl
  perm_below := rfl
  r_canonical _ h := nomatch h

/-- Settles O5: a step runs an instruction or does an event that runs none, and each keeps the invariant. -/
theorem stepKeepsInvariant : Obligations.StepKeepsInvariant := by
  unfold Obligations.StepKeepsInvariant
  intro s t hs h
  obtain ⟨-, ⟨i, u, hfetch, hexec⟩ | hfetch⟩ := step_next_cases h
  · exact exec_keeps_inv (fetch_run_keeps_inv hs hfetch) hexec
  · exact fetch_other_keeps_inv hs hfetch

end Sys2Proof.Machine

/-! Memory: the permission of one byte, MemRead and MemWrite, the views of a buffer, why a pointer fails its
validation, and a call that is repeated (spec 20_memory R30 to R40). -/

namespace Sys2Proof.Machine

/-! ## The permission of one byte -/

theorem permits_read_iff (x : Perm) : permits .READ x = true ↔ x = .R ∨ x = .RW := by
  cases x <;> simp [permits]

theorem permits_write_iff (x : Perm) : permits .WRITE x = true ↔ x = .RW := by
  cases x <;> simp [permits]

theorem allows_iff (c : Config) (s : State) (k : Access) (x : Nat) :
    s.allows c k x = true ↔ x ≠ 0 ∧ x < 2 ^ c.addrW ∧ permits k (s.perm.at x) = true := by
  simp [State.allows, and_assoc]

/-- Address 0 is never readable or writable (20_memory R34). -/
@[simp] theorem allows_zero (c : Config) (s : State) (k : Access) : s.allows c k 0 = false := by
  simp [State.allows]

/-- A byte's permission depends on the permission map alone. -/
theorem allows_congr {c : Config} {s t : State} {k : Access} {x : Nat} (h : t.perm = s.perm) :
    t.allows c k x = s.allows c k x := by
  simp [State.allows, h]

/-- What is writable is readable (20_memory R31). -/
theorem allows_read_of_write {c : Config} {s : State} {x : Nat} (h : s.allows c .WRITE x = true) :
    s.allows c .READ x = true := by
  obtain ⟨h0, hx, hw⟩ := (allows_iff ..).mp h
  exact (allows_iff ..).mpr ⟨h0, hx, (permits_read_iff _).mpr (.inr ((permits_write_iff _).mp hw))⟩

/-- Settles O44: `allows` and `permits`, read as the rule. -/
theorem permissionRule : Obligations.PermissionRule := by
  unfold Obligations.PermissionRule
  intro c s x hx
  rw [allows_iff, allows_iff, permits_read_iff, permits_write_iff]
  exact ⟨and_congr_right fun _ => and_iff_right hx, and_congr_right fun _ => and_iff_right hx⟩

/-! ## MemRead and MemWrite of one byte -/

theorem memRead_of_allowed {c : Config} {s : State} {x : Nat} (h : s.allows c .READ x = true) :
    memRead c s x = .ok (s.mem.byteAt x) := by
  simp [memRead, h]

theorem memRead_of_denied {c : Config} {s : State} {x : Nat} (h : s.allows c .READ x = false) :
    memRead c s x = .error (.accessDenied x) := by
  simp [memRead, h]

theorem memWrite_of_allowed {c : Config} {s : State} {x : Nat} (v : Byte) (h : s.allows c .WRITE x = true) :
    memWrite c s x v = .ok { s with mem := s.mem.put x v } := by
  simp [memWrite, h]

theorem memWrite_of_denied {c : Config} {s : State} {x : Nat} (v : Byte) (h : s.allows c .WRITE x = false) :
    memWrite c s x v = .error (.accessDenied x) := by
  simp [memWrite, h]

/-- Settles O45: the written byte reads back because what is writable is readable. -/
theorem memWriteThenMemRead : Obligations.MemWriteThenMemRead := by
  unfold Obligations.MemWriteThenMemRead
  intro c s x v hwf
  refine ⟨fun h => ⟨_, memWrite_of_allowed v h, ?_, fun y hy => byteAt_put_other _ v hy, wf_put hwf x v, rfl⟩,
    memWrite_of_denied v⟩
  have hread : State.allows c { s with mem := s.mem.put x v } .READ x = true :=
    (allows_congr rfl).trans (allows_read_of_write h)
  exact (memRead_of_allowed hread).trans (congrArg Except.ok (byteAt_put_same hwf x v))

/-! ## The views of a buffer -/

open Finset in
/-- A sum over m blocks of w indices each is the sum over all w · m indices. -/
theorem sum_range_blocks (f : Nat → Nat) (w m : Nat) :
    ∑ k ∈ range m, ∑ j ∈ range w, f (w * k + j) = ∑ i ∈ range (w * m), f i := by
  induction m with
  | zero => simp
  | succ m ih => rw [sum_range_succ, ih, Nat.mul_succ, sum_range_add]

open Finset in
/-- DECODE's value is the sum of the buffer's 32 bytes' digits (20_memory R30). -/
theorem decodeBuf_eq_sum_bytes (buf : Buf) :
    decodeBuf buf = ∑ i ∈ range 32, (buf.get i).toNat * 2 ^ (8 * i) := by
  calc decodeBuf buf
      = ∑ k ∈ range 4, ∑ j ∈ range 8, (buf.get (8 * k + j)).toNat * 2 ^ (8 * (8 * k + j)) := by
        rw [decodeBuf_eq_sum]
        refine sum_congr rfl fun k _ => ?_
        rw [limbOf_eq_sum, sum_mul]
        refine sum_congr rfl fun j _ => ?_
        rw [mul_assoc, ← pow_add]
        congr 2
        ring
    _ = ∑ i ∈ range 32, (buf.get i).toNat * 2 ^ (8 * i) :=
        sum_range_blocks (fun i => (buf.get i).toNat * 2 ^ (8 * i)) 8 4

/-- Settles O15: the codec's sums, each byte read from memory. -/
theorem bufferViewsAgree : Obligations.BufferViewsAgree := by
  unfold Obligations.BufferViewsAgree
  intro s p
  refine ⟨fun k hk => ?_, decodeBuf_eq_sum _, ?_⟩
  · rw [limbOf_eq_sum]
    refine Finset.sum_congr rfl fun j hj => ?_
    have hj : j < 8 := Finset.mem_range.mp hj
    rw [bufAt_get s p (by omega)]
  · rw [decodeBuf_eq_sum_bytes]
    refine Finset.sum_congr rfl fun i hi => ?_
    rw [bufAt_get s p (Finset.mem_range.mp hi)]

/-! ## The checks of one pointer -/

theorem checkPtr_inaccessible {c : Config} {s : State} {k : Access} {p : Nat} (h0 : p ≠ 0) (hal : p % c.align = 0)
    (hacc : accessible c s k p = false) : checkPtr c s k p = some .inaccessible := by
  simp [checkPtr, h0, hal, hacc]

/-- Every pointer is a multiple of 1 (20_memory R35). -/
theorem checkPtr_ne_misaligned {c : Config} (hc : c.align = 1) (s : State) (k : Access) (p : Nat) :
    checkPtr c s k p ≠ some .misaligned := by
  simp only [checkPtr, hc, Nat.mod_one, ne_eq, not_true_eq_false, if_false]
  split
  · simp
  · split <;> simp

theorem not_admitted_null {c : Config} {s : State} {k : Access} : ¬ Admitted c s k 0 := fun h => h.1 rfl

theorem ptrAbort_of_admitted {c : Config} {s : State} {arg : PtrArg} {p : Nat} (h : Admitted c s (accessOf arg) p) :
    ptrAbort c s arg p = none := by
  rw [ptrAbort, (checkPtr_none_iff ..).mpr h, Option.map_none]

theorem ptrAbort_inaccessible {c : Config} {s : State} (arg : PtrArg) {p : Nat} (h0 : p ≠ 0) (hal : p % c.align = 0)
    (hacc : accessible c s (accessOf arg) p = false) : ptrAbort c s arg p = some (abortOf arg .inaccessible p) := by
  rw [ptrAbort, checkPtr_inaccessible h0 hal hacc, Option.map_some]

/-! ## Validation -/

/-- Validation takes the first abort of a, b and out (42_ffi R80). -/
theorem validate_eq_or (c : Config) (s : State) (a b o : Nat) :
    validate c s a b o = (ptrAbort c s .a a).or ((ptrAbort c s .b b).or (ptrAbort c s .out o)) := by
  unfold validate
  cases ptrAbort c s .a a <;> cases ptrAbort c s .b b <;> rfl

/-- The cause of a failed validation is that of a failing check of one of the pointers. -/
theorem validate_some {c : Config} {s : State} {a b o : Nat} {cause : Abort} (h : validate c s a b o = some cause) :
    ∃ arg chk p, checkPtr c s (accessOf arg) p = some chk ∧ cause = abortOf arg chk p := by
  have of_ptrAbort {arg : PtrArg} {p : Nat} (h : ptrAbort c s arg p = some cause) :
      ∃ arg chk p, checkPtr c s (accessOf arg) p = some chk ∧ cause = abortOf arg chk p := by
    obtain ⟨chk, hchk, rfl⟩ := Option.map_eq_some_iff.mp h
    exact ⟨arg, chk, p, hchk, rfl⟩
  rw [validate_eq_or, Option.or_eq_some_iff, Option.or_eq_some_iff] at h
  obtain h | ⟨-, h | ⟨-, h⟩⟩ := h <;> exact of_ptrAbort h

/-- The check whose failure an abort records (60_exceptions R92). -/
def Abort.check : Abort → PtrCheck
  | .nullA _ | .nullB _ | .nullOut _ => .null
  | .misalignedA _ | .misalignedB _ | .misalignedOut _ => .misaligned
  | .unreadableA _ | .unreadableB _ | .unwritableOut _ => .inaccessible

@[simp] theorem check_abortOf (arg : PtrArg) (chk : PtrCheck) (p : Nat) : (abortOf arg chk p).check = chk := by
  cases arg <;> cases chk <;> rfl

theorem validate_check_ne_misaligned {c : Config} (hc : c.align = 1) {s : State} {a b o : Nat} {cause : Abort}
    (h : validate c s a b o = some cause) : cause.check ≠ .misaligned := by
  obtain ⟨arg, chk, p, hchk, rfl⟩ := validate_some h
  rw [check_abortOf]
  rintro rfl
  exact checkPtr_ne_misaligned hc s _ p hchk

/-- Settles O43: no check of alignment fails, so no abort names one. -/
theorem alignOneRemovesTheCheck : Obligations.AlignOneRemovesTheCheck := by
  unfold Obligations.AlignOneRemovesTheCheck
  intro c s a b o p hc
  exact ⟨fun h => validate_check_ne_misaligned hc h rfl, fun h => validate_check_ne_misaligned hc h rfl,
    fun h => validate_check_ne_misaligned hc h rfl⟩

/-- A call that is not admitted takes an abort (42_ffi R79). -/
theorem multiply_aborts_of_not_admitted {c : Config} {s : State} {a b o : Nat} (h : ¬ CallAdmitted c s a b o) :
    ∃ cause, multiply c a b o s = .next (raiseAbort cause s) := by
  obtain ⟨cause, hcause⟩ := Option.ne_none_iff_exists'.mp (mt (validate_none_iff c s a b o).mp h)
  exact ⟨cause, multiply_abort hcause⟩

/-- Settles O46: address 0 is never allowed, and a null pointer is never admitted. -/
theorem nullIsNeverAccessed : Obligations.NullIsNeverAccessed := by
  unfold Obligations.NullIsNeverAccessed
  intro s p q v
  simp only [exec_multiply]
  refine ⟨memRead_of_denied (allows_zero ..), memWrite_of_denied v (allows_zero ..),
    multiply_aborts_of_not_admitted ?_, multiply_aborts_of_not_admitted ?_, multiply_aborts_of_not_admitted ?_⟩
  · rintro ⟨ha, -, -⟩
    exact not_admitted_null ha
  · rintro ⟨-, hb, -⟩
    exact not_admitted_null hb
  · rintro ⟨-, -, ho⟩
    exact not_admitted_null ho

/-! ## Buffers that would pass the top of the address space -/

theorem inRange_eq_false_iff (c : Config) (p : Nat) : inRange c p = false ↔ p + 31 > 2 ^ c.addrW - 1 := by
  simp [inRange]

/-- A buffer that passes the top is accessible for no access (20_memory R37). -/
theorem accessible_of_past_top {c : Config} {p : Nat} (h : p + 31 > 2 ^ c.addrW - 1) (s : State) (k : Access) :
    accessible c s k p = false := by
  rw [accessible, (inRange_eq_false_iff c p).mpr h, Bool.false_and]

/-- This hardware's address space holds at least the 2^16 addresses of log 2. -/
theorem hardware_space_le : 2 ^ 16 ≤ 2 ^ Config.hardware.addrW :=
  Nat.pow_le_pow_right (by decide) Config.hardware_le_addrW

/-- Settles O42: a buffer that passes the top is inaccessible, and its pointer is no null pointer. -/
theorem bufferNeverWraps : Obligations.BufferNeverWraps := by
  unfold Obligations.BufferNeverWraps
  intro s p q r c
  have hspace : 2 ^ 16 ≤ 2 ^ c.addrW := hardware_space_le
  refine ⟨fun h => accessible_of_past_top h s, ?_, fun h hal => ?_⟩
  · rw [inRange_eq_false_iff]
    omega
  · have hp (arg : PtrArg) : ptrAbort c s arg p = some (abortOf arg .inaccessible p) :=
      ptrAbort_inaccessible arg (by omega) hal (accessible_of_past_top h s _)
    refine ⟨multiply_abort ?_, fun hq => multiply_abort ?_, fun hq hr => multiply_abort ?_⟩
    · rw [validate_eq_or, hp .a]
      rfl
    · rw [validate_eq_or, ptrAbort_of_admitted (arg := .a) hq, hp .b]
      rfl
    · rw [validate_eq_or, ptrAbort_of_admitted (arg := .a) hq, ptrAbort_of_admitted (arg := .b) hr, hp .out]
      rfl

/-! ## A repeated call -/

/-- Writing the same bytes again changes nothing. -/
theorem putBytes_putBytes_same {m : Memory} (h : m.wf = true) (a : Nat) (l : List Byte) :
    (m.putBytes a l).putBytes a l = m.putBytes a l := by
  have hwf := wf_putBytes h a l
  refine Memory.ext_byteAt (wf_putBytes hwf a l) hwf fun x => ?_
  by_cases hx : a ≤ x ∧ x < a + l.length
  · obtain ⟨i, rfl⟩ := Nat.exists_eq_add_of_le hx.1
    have hi : i < l.length := by omega
    rw [byteAt_putBytes_inside hwf a i l hi, byteAt_putBytes_inside h a i l hi]
  · exact byteAt_putBytes_outside _ _ _ _ (by omega)

/-- Admission of a call depends on the permission map alone. -/
theorem callAdmitted_congr {c : Config} {s t : State} {a b o : Nat} (h : t.perm = s.perm) :
    CallAdmitted c t a b o ↔ CallAdmitted c s a b o := by
  simp only [CallAdmitted, admitted_congr h]

theorem overlaps_eq_false_iff (p q : Nat) : overlaps p q = false ↔ q + 32 ≤ p ∨ p + 32 ≤ q := by
  simp [overlaps, imp_iff_not_or]

/-- A buffer that the out buffer does not overlap is as before after the call (20_memory R39). -/
theorem bufAt_of_not_overlaps {c : Config} {s t : State} {a b o p : Nat} (h : multiply c a b o s = .next t)
    (hp : overlaps o p = false) : t.bufAt p = s.bufAt p := by
  obtain ⟨-, hmem⟩ := multiply_writes_out_buffer h
  refine bufAt_eq_of_bytes fun i hi => ?_
  by_contra hne
  obtain ⟨-, hlo, hhi⟩ := hmem _ hne
  obtain hbelow | habove := (overlaps_eq_false_iff o p).mp hp <;> omega

/-- Settles O33: the second call computes the same product from the same inputs and writes it over itself. -/
theorem repeatedCallChangesNothing : Obligations.RepeatedCallChangesNothing := by
  unfold Obligations.RepeatedCallChangesNothing
  intro s t a b o hwf hadm hov h
  obtain ⟨hova, hovb⟩ : overlaps o a = false ∧ overlaps o b = false := by simpa [outOverlaps] using hov
  have ha := bufAt_of_not_overlaps h hova
  have hb := bufAt_of_not_overlaps h hovb
  refine ⟨ha, hb, ?_⟩
  obtain ⟨hperm, -⟩ := multiply_writes_out_buffer h
  rw [exec_multiply, multiply_hardware_of_admitted ((callAdmitted_congr hperm).mpr hadm), ha, hb]
  rw [exec_multiply, multiply_hardware_of_admitted hadm] at h
  obtain rfl := next_inj h
  simp only [putBytes_putBytes_same hwf]

end Sys2Proof.Machine

/-! Encoding: the words of a descriptor, decode and encode as inverses, the bits of a buffer's value, and what a host
program's lines do (spec 30_encoding R46 to R60). -/

namespace Sys2Proof

/-! ## Words of a byte sequence -/

theorem descWord_zero_of_length {n : Nat} {w : List Byte} (h : w.length = n) : descWord n 0 w = leValue w := by
  simp [descWord, ← h]

theorem descWord_zero_append {n : Nat} {w : List Byte} (rest : List Byte) (h : w.length = n) :
    descWord n 0 (w ++ rest) = leValue w := by
  simp [descWord, ← h]

theorem descWord_succ_append {n : Nat} (k : Nat) {w : List Byte} (rest : List Byte) (h : w.length = n) :
    descWord n (k + 1) (w ++ rest) = descWord n k rest := by
  rw [descWord, descWord, Nat.mul_succ, Nat.add_comm, ← List.drop_drop, List.drop_left' h]

theorem descWord_lt (n k : Nat) (bytes : List Byte) : descWord n k bytes < 256 ^ n :=
  (leValue_lt _).trans_le (Nat.pow_le_pow_right (by omega) (List.length_take_le ..))

/-- The bytes of word k are the k-th n bytes, where the sequence is that long. -/
theorem leBytes_descWord {n k : Nat} {bytes : List Byte} (h : n * k + n ≤ bytes.length) :
    leBytes n (descWord n k bytes) = (bytes.drop (n * k)).take n := by
  have hlen : ((bytes.drop (n * k)).take n).length = n := by
    rw [List.length_take, List.length_drop]; omega
  simpa only [descWord, hlen] using leBytes_leValue ((bytes.drop (n * k)).take n)

/-! ## Reading the four words and writing them out are inverse -/

/-- Each word fits in n bytes. -/
def Descriptor.Fits (n : Nat) (d : Descriptor) : Prop :=
  d.w0 < 256 ^ n ∧ d.w1 < 256 ^ n ∧ d.w2 < 256 ^ n ∧ d.w3 < 256 ^ n

theorem readWords_of_length {c : Config} {bytes : List Byte} (h : bytes.length = 4 * c.descWordBytes) :
    readWords c bytes = .ok ⟨descWord c.descWordBytes 0 bytes, descWord c.descWordBytes 1 bytes,
      descWord c.descWordBytes 2 bytes, descWord c.descWordBytes 3 bytes⟩ := by
  simp [readWords, h]

/-- The words are read only from a sequence of the one length a descriptor has (R57). -/
theorem readWords_eq_ok {c : Config} {bytes : List Byte} {d : Descriptor} (h : readWords c bytes = .ok d) :
    bytes.length = 4 * c.descWordBytes ∧
      d = ⟨descWord c.descWordBytes 0 bytes, descWord c.descWordBytes 1 bytes,
        descWord c.descWordBytes 2 bytes, descWord c.descWordBytes 3 bytes⟩ := by
  by_cases hlen : bytes.length = 4 * c.descWordBytes
  · rw [readWords_of_length hlen] at h
    exact ⟨hlen, (Except.ok.inj h).symm⟩
  · simp [readWords, hlen] at h

theorem readWords_wordsBytes {c : Config} {d : Descriptor} (h : d.Fits c.descWordBytes) :
    readWords c (wordsBytes c.descWordBytes d) = .ok d := by
  obtain ⟨h0, h1, h2, h3⟩ := h
  rw [readWords_of_length (wordsBytes_length ..)]
  simp only [wordsBytes, List.append_assoc, descWord_zero_append, descWord_succ_append, descWord_zero_of_length,
    leBytes_length, leValue_leBytes h0, leValue_leBytes h1, leValue_leBytes h2, leValue_leBytes h3]

theorem fits_of_readWords {c : Config} {bytes : List Byte} {d : Descriptor} (h : readWords c bytes = .ok d) :
    d.Fits c.descWordBytes := by
  obtain ⟨-, rfl⟩ := readWords_eq_ok h
  exact ⟨descWord_lt .., descWord_lt .., descWord_lt .., descWord_lt ..⟩

theorem wordsBytes_of_readWords {c : Config} {bytes : List Byte} {d : Descriptor} (h : readWords c bytes = .ok d) :
    wordsBytes c.descWordBytes d = bytes := by
  obtain ⟨hlen, rfl⟩ := readWords_eq_ok h
  generalize c.descWordBytes = n at hlen
  have hlast : (bytes.drop (n * 3)).take n = bytes.drop (n * 3) :=
    List.take_of_length_le (by rw [List.length_drop]; omega)
  have hdrop (k : Nat) : bytes.drop (n * (k + 1)) = (bytes.drop (n * k)).drop n := by
    rw [List.drop_drop, Nat.mul_succ]
  simp only [wordsBytes, List.append_assoc]
  rw [leBytes_descWord (by omega), leBytes_descWord (by omega), leBytes_descWord (by omega),
    leBytes_descWord (by omega), hlast, hdrop 2, List.take_append_drop, hdrop 1, List.take_append_drop, hdrop 0,
    List.take_append_drop, Nat.mul_zero, List.drop_zero]

/-! ## The meaning of four words -/

theorem pointerField_of_lt {c : Config} {w : Nat} (h : w < 2 ^ c.addrW) : pointerField c w = w := Nat.mod_eq_of_lt h

theorem wellFormed_multiply_iff (c : Config) (a b o : Nat) :
    wellFormed c (.multiply a b o) = true ↔ a < 2 ^ c.addrW ∧ b < 2 ^ c.addrW ∧ o < 2 ^ c.addrW := by
  simp [wellFormed, and_assoc]

theorem decodeCallWords_of_zero (c : Config) {d : Descriptor} (h : d.w0 = 0) :
    decodeCallWords c d = .ok (.multiply (pointerField c d.w1) (pointerField c d.w2) (pointerField c d.w3)) := by
  simp [decodeCallWords, h]

theorem decodeCallWords_of_internal (c : Config) {d : Descriptor} (h1 : 1 ≤ d.w0) (h3 : d.w0 ≤ 3) :
    decodeCallWords c d = .error (.internalStage d.w0) := by
  have h0 : d.w0 ≠ 0 := by omega
  simp [decodeCallWords, h0, h3]

theorem decodeCallWords_of_reserved (c : Config) {d : Descriptor} (h : 4 ≤ d.w0) :
    decodeCallWords c d = .error (.reserved d.w0) := by
  have h0 : d.w0 ≠ 0 := by omega
  have h3 : ¬ d.w0 ≤ 3 := by omega
  simp [decodeCallWords, h0, h3]

/-- The only words that decode to a call have w0 = 0. -/
theorem decodeCallWords_eq_ok {c : Config} {d : Descriptor} {i : Instr} (h : decodeCallWords c d = .ok i) :
    d.w0 = 0 ∧ i = .multiply (pointerField c d.w1) (pointerField c d.w2) (pointerField c d.w3) := by
  by_cases h0 : d.w0 = 0
  · rw [decodeCallWords_of_zero c h0] at h
    exact ⟨h0, (Except.ok.inj h).symm⟩
  · by_cases h3 : d.w0 ≤ 3
    · rw [decodeCallWords_of_internal c (by omega) h3] at h; cases h
    · rw [decodeCallWords_of_reserved c (by omega)] at h; cases h

theorem decodeOperationWords_encodeWords {c : Config} {i : Instr} (h : wellFormed c i = true) :
    decodeOperationWords c (encodeWords i) = .ok i := by
  cases i with
  | multiply a b o =>
    obtain ⟨ha, hb, ho⟩ := (wellFormed_multiply_iff c a b o).mp h
    simp [decodeOperationWords, encodeWords, decodeCallWords_of_zero, pointerField_of_lt, ha, hb, ho]
  | decode side => cases side <;> rfl
  | encode => rfl
  | fmul => rfl

/-- Words the bench takes for a stage are that stage's words. -/
theorem encodeWords_of_decodeStageWords {d : Descriptor} {i : Instr} (h : decodeStageWords d = .ok i) :
    encodeWords i = d := by
  obtain ⟨w0, w1, w2, w3⟩ := d
  unfold decodeStageWords at h
  split at h
  · rename_i hz
    obtain ⟨rfl, rfl⟩ : w2 = 0 ∧ w3 = 0 := hz
    split at h
    case h_5 => cases h
    all_goals
      rename_i h0 h1
      obtain rfl := Except.ok.inj h
      obtain rfl : w0 = _ := h0
      obtain rfl : w1 = _ := h1
      rfl
  · cases h

/-- Words that decode are the words of what they decode to, when no pointer loses a bit. -/
theorem encodeWords_of_decodeOperationWords {c : Config} {d : Descriptor} {i : Instr}
    (h1 : d.w1 < 2 ^ c.addrW) (h2 : d.w2 < 2 ^ c.addrW) (h3 : d.w3 < 2 ^ c.addrW)
    (h : decodeOperationWords c d = .ok i) : encodeWords i = d := by
  unfold decodeOperationWords at h
  split at h
  · exact encodeWords_of_decodeStageWords h
  · obtain ⟨h0, rfl⟩ := decodeCallWords_eq_ok h
    rw [pointerField_of_lt h1, pointerField_of_lt h2, pointerField_of_lt h3, encodeWords, ← h0]

/-! ## Decode after encode -/

theorem decodeDescriptor_of_readWords {c : Config} {bytes : List Byte} {d : Descriptor}
    (h : readWords c bytes = .ok d) : decodeDescriptor c bytes = decodeCallWords c d := by
  simp [decodeDescriptor, h]

theorem decodeOperation_of_readWords {c : Config} {bytes : List Byte} {d : Descriptor}
    (h : readWords c bytes = .ok d) : decodeOperation c bytes = decodeOperationWords c d := by
  simp [decodeOperation, h]

/-- A descriptor's words hold a pointer, and hold the operation index (R54). -/
def Config.WordsHoldPointers (c : Config) : Prop := 0 < c.descWordBytes ∧ c.addrW ≤ 8 * c.descWordBytes

theorem two_pow_addrW_le {c : Config} (h : c.WordsHoldPointers) : 2 ^ c.addrW ≤ 256 ^ c.descWordBytes :=
  (Nat.pow_le_pow_right (by omega) h.2).trans_eq (pow_mul 2 8 c.descWordBytes)

theorem Config.Admissible.wordsHoldPointers {c : Config} (h : c.Admissible) : c.WordsHoldPointers := by
  have := h.descWordBytes
  constructor <;> omega

theorem encodeWords_fits {c : Config} {i : Instr} (hc : c.WordsHoldPointers) (h : wellFormed c i = true) :
    (encodeWords i).Fits c.descWordBytes := by
  have hptr := two_pow_addrW_le hc
  have hbyte : 256 ≤ 256 ^ c.descWordBytes := Nat.le_self_pow hc.1.ne' 256
  unfold Descriptor.Fits
  cases i with
  | multiply a b o =>
    obtain ⟨ha, hb, ho⟩ := (wellFormed_multiply_iff c a b o).mp h
    simp only [encodeWords]
    omega
  | decode side => cases side <;> simp only [encodeWords] <;> omega
  | encode => simp only [encodeWords]; omega
  | fmul => simp only [encodeWords]; omega

theorem readWords_encode {c : Config} {i : Instr} (hc : c.WordsHoldPointers) (h : wellFormed c i = true) :
    readWords c (encode c i) = .ok (encodeWords i) := readWords_wordsBytes (encodeWords_fits hc h)

theorem decodeOperation_encode {c : Config} {i : Instr} (hc : c.WordsHoldPointers) (h : wellFormed c i = true) :
    decodeOperation c (encode c i) = .ok i :=
  (decodeOperation_of_readWords (readWords_encode hc h)).trans (decodeOperationWords_encodeWords h)

theorem decodeDescriptor_encode_multiply {c : Config} {a b o : Nat} (hc : c.WordsHoldPointers)
    (h : wellFormed c (.multiply a b o) = true) :
    decodeDescriptor c (encode c (.multiply a b o)) = .ok (.multiply a b o) :=
  (decodeDescriptor_of_readWords (readWords_encode hc h)).trans (decodeOperationWords_encodeWords h)

/-- Settles O10: the words of a well-formed instruction fit, so they are read back, and they decode to it. -/
theorem decodeOfEncodeIsIdentity : Obligations.DecodeOfEncodeIsIdentity := by
  unfold Obligations.DecodeOfEncodeIsIdentity
  intro c i hc h
  refine ⟨decodeOperation_encode hc.wordsHoldPointers h, ?_⟩
  rintro a b o rfl
  exact decodeDescriptor_encode_multiply hc.wordsHoldPointers h

/-! ## Encode after decode -/

/-- Settles O11: the words read are the instruction's own words, and their bytes are the bytes read. -/
theorem encodeOfDecodeIsIdentity : Obligations.EncodeOfDecodeIsIdentity := by
  unfold Obligations.EncodeOfDecodeIsIdentity
  intro c bytes i hw h
  cases hd : readWords c bytes with
  | error e => simp [decodeOperation, hd] at h
  | ok d =>
    rw [decodeOperation_of_readWords hd] at h
    have hspace : 256 ^ c.descWordBytes = 2 ^ c.addrW := by rw [hw, pow_mul]; rfl
    obtain ⟨-, h1, h2, h3⟩ := fits_of_readWords hd
    rw [hspace] at h1 h2 h3
    rw [encode, encodeWords_of_decodeOperationWords h1 h2 h3 h, wordsBytes_of_readWords hd]

/-! ## The decoder of descriptors on this hardware -/

theorem decodeDescriptor_hardware {d : List Byte} (h : d.length = 32) :
    decodeDescriptor Config.hardware d =
      decodeCallWords Config.hardware ⟨descWord 8 0 d, descWord 8 1 d, descWord 8 2 d, descWord 8 3 d⟩ :=
  decodeDescriptor_of_readWords (readWords_of_length h)

/-- Settles O12: the three cases of the reading of four words. -/
theorem descriptorDecoderIsTotal : Obligations.DescriptorDecoderIsTotal := by
  unfold Obligations.DescriptorDecoderIsTotal
  intro d hlen
  rw [decodeDescriptor_hardware hlen]
  exact ⟨fun h => decodeCallWords_of_zero _ h, fun h => decodeCallWords_of_internal _ h.1 h.2,
    fun h => decodeCallWords_of_reserved _ h⟩

theorem decodeTableWord_of_encode {nbits w : Nat} {i : Instr} (h : tableBytes nbits w = encode Config.hardware i)
    (hwf : wellFormed Config.hardware i = true) : decodeTableWord nbits w = some i := by
  rw [decodeTableWord, h, decodeOperation_encode Config.hardware_admissible.wordsHoldPointers hwf]

/-- Settles O13: the bytes are the encodings of what they stand for; the word 4 names no operation. -/
theorem knownDescriptorsDecode : Obligations.KnownDescriptorsDecode := by
  unfold Obligations.KnownDescriptorsDecode
  have hzero : wellFormed Config.hardware (.multiply 0 0 0) = true := by simp [wellFormed]
  refine ⟨decodeTableWord_of_encode rfl hzero, decodeTableWord_of_encode rfl rfl, decodeTableWord_of_encode rfl rfl,
    decodeTableWord_of_encode rfl rfl, rfl, ?_⟩
  intro c haddr hword
  have hc : c.WordsHoldPointers := ⟨by omega, by omega⟩
  have hcall {a b o : Nat} {bytes : List Byte} (hbytes : wordsBytes 8 ⟨0, a, b, o⟩ = bytes)
      (ha : a < 2 ^ 64) (hb : b < 2 ^ 64) (ho : o < 2 ^ 64) : decodeDescriptor c bytes = .ok (.multiply a b o) := by
    have hwf : wellFormed c (.multiply a b o) = true := by
      rw [wellFormed_multiply_iff, haddr]
      exact ⟨ha, hb, ho⟩
    simpa only [encode, encodeWords, hword, hbytes] using decodeDescriptor_encode_multiply hc hwf
  exact ⟨hcall rfl (by decide) (by decide) (by decide), hcall rfl (by decide) (by decide) (by decide)⟩

end Sys2Proof

namespace Sys2Proof.Machine

/-! ## The bits of a buffer's value -/

open Finset in
/-- Bit i of a number written in digits of w bits is bit i mod w of digit i div w. -/
theorem testBit_sum_digits {w n i : Nat} {f : Nat → Nat} (h : ∀ j < n, f j < 2 ^ w) (hi : i < w * n) :
    (∑ j ∈ range n, f j * 2 ^ (w * j)).testBit i = (f (i / w)).testBit (i % w) := by
  induction n with
  | zero => omega
  | succ n ih =>
    have hlow := sum_digits_lt w n f fun j hj => h j (by omega)
    rw [sum_range_succ, add_comm, mul_comm, Nat.testBit_two_pow_mul_add _ hlow]
    split
    · rename_i hlt
      exact ih (fun j hj => h j (by omega)) hlt
    · rename_i hge
      obtain ⟨r, rfl⟩ := Nat.exists_eq_add_of_le (not_lt.mp hge)
      have hr : r < w := by rw [Nat.mul_succ] at hi; omega
      rw [Nat.add_sub_cancel_left, Nat.mul_add_div (by omega), Nat.div_eq_of_lt hr, Nat.mul_add_mod,
        Nat.mod_eq_of_lt hr, Nat.add_zero]

/-- Settles O14: the codec's sums by bytes and by limbs, and the bits of the sum by bytes. -/
theorem bufferValueIsLittleEndian : Obligations.BufferValueIsLittleEndian := by
  unfold Obligations.BufferValueIsLittleEndian
  intro buf
  refine ⟨decodeBuf_eq_sum_bytes buf, decodeBuf_eq_sum buf, decodeBuf_lt buf, fun i hi => ?_⟩
  rw [decodeBuf_eq_sum_bytes, testBit_sum_digits (f := fun j => (buf.get j).toNat) (fun j _ => (buf.get j).isLt) hi]
  exact BitVec.testBit_toNat _

/-! ## The next action of a program -/

theorem actions_append (p q : Script) : (p.append q).actions = p.actions ++ q.actions := by
  induction p with
  | done => rfl
  | line act rest ih => simp [Script.append, Script.actions, ih]
  | rep n body rest _ ih => simp [Script.append, Script.actions, ih]

/-- REPEAT n + 1 is its body once and REPEAT n after it. -/
theorem actions_rep_succ (n : Nat) (body rest : Script) :
    (Script.rep (n + 1) body rest).actions = body.actions ++ (Script.rep n body rest).actions := by
  simp [Script.actions, List.replicate_succ]

theorem actions_rep_of_empty {body : Script} (h : body.actions = []) (n : Nat) (rest : Script) :
    (Script.rep n body rest).actions = rest.actions := by
  simp [Script.actions, h]

/-- The next action of a program is the head of its list of actions, and what is left has the tail. -/
theorem actions_eq_of_next (p : Script) :
    p.actions = match p.next with
      | none => []
      | some (act, left) => act :: left.actions := by
  induction p with
  | done => rfl
  | line act rest => rfl
  | rep n body rest ihBody ihRest =>
    cases n with
    | zero => exact ihRest
    | succ n =>
      cases hb : body.next with
      | none =>
        rw [hb] at ihBody
        simp only [actions_rep_of_empty ihBody, Script.next, hb, ihRest]
      | some pair =>
        rw [hb] at ihBody
        simp only [actions_rep_succ, ihBody, Script.next, hb, actions_append, List.cons_append]

/-- Settles O47: the list of actions read off the next action, in both of its cases. -/
theorem repeatRunsItsBodyNTimes : Obligations.RepeatRunsItsBodyNTimes := by
  unfold Obligations.RepeatRunsItsBodyNTimes
  intro p
  have hp := actions_eq_of_next p
  cases hn : p.next with
  | none =>
    rw [hn] at hp
    simp [hp]
  | some pair =>
    rw [hn] at hp
    refine ⟨by simp [hp], ?_⟩
    rintro act left ⟨⟩
    exact hp

/-! ## The step of each kind of event -/

section turn

variable {s t : State} {k : Nat} {rest : List Event} (ha : s.abort = none) (hs : s.schedule = .agent k :: rest)
include ha hs

/-- A call whose descriptor does not decode is refused (30_encoding R55). -/
theorem step_call_of_error {d : List Byte} {e : DecodeRefusal}
    (ht : State.takeAction { s with schedule := rest } k = some (.call d, t))
    (hd : decodeDescriptor Config.hardware d = .error e) : step s = .refused (refusalOf e) := by
  rw [step_live ha, fetch_agent hs]
  simp [agentTurn, ht, hd, fetched]

theorem step_map {a n : Nat} {x : Perm}
    (ht : State.takeAction { s with schedule := rest } k = some (.map a n x, t)) :
    step s = hostMap Config.hardware a n x t := by
  rw [step_live ha, fetch_agent hs]
  simp [agentTurn, ht]

theorem step_write {a : Nat} {bytes : List Byte}
    (ht : State.takeAction { s with schedule := rest } k = some (.write a bytes, t)) :
    step s = hostWrite Config.hardware a bytes t := by
  rw [step_live ha, fetch_agent hs]
  simp [agentTurn, ht]

theorem step_copy {dst src : Nat}
    (ht : State.takeAction { s with schedule := rest } k = some (.copy dst src, t)) :
    step s = hostCopy Config.hardware dst src t := by
  rw [step_live ha, fetch_agent hs]
  simp [agentTurn, ht]

end turn

/-- Settles O7: the bench's event runs what its words decode to. -/
theorem stepRunsBenchStage : Obligations.StepRunsBenchStage := by
  unfold Obligations.StepRunsBenchStage
  intro s rest stage i ha hs hd
  rw [step_live ha]
  simp [fetch, hs, hd, fetched]

/-- Settles O8: the decoder refuses such a descriptor, and the step passes its refusal on. -/
theorem callerCannotRunAStage : Obligations.CallerCannotRunAStage := by
  unfold Obligations.CallerCannotRunAStage
  intro s k rest ag d left ha hs hk hl hn hlen
  obtain ⟨-, hinternal, hreserved⟩ := descriptorDecoderIsTotal d hlen
  have ht := takeAction_of (s := { s with schedule := rest }) hk hl hn
  exact ⟨fun h => step_call_of_error ha hs ht (hinternal h), fun h => step_call_of_error ha hs ht (hreserved h)⟩

/-! ## The host's lines within the address space -/

theorem hostMap_of_le {c : Config} {a n : Nat} (h : a + n ≤ 2 ^ c.addrW) (x : Perm) (s : State) :
    hostMap c a n x s = .next { s with perm := s.perm.putRange a x n } := by
  simp [hostMap, inSpace, h]

theorem hostWrite_of_le {c : Config} {a : Nat} {bytes : List Byte} (h : a + bytes.length ≤ 2 ^ c.addrW) (s : State) :
    hostWrite c a bytes s = .next { s with mem := s.mem.putBytes a bytes } := by
  simp [hostWrite, inSpace, h]

theorem hostCopy_of_le {c : Config} {dst src : Nat} (hdst : dst + 32 ≤ 2 ^ c.addrW) (hsrc : src + 32 ≤ 2 ^ c.addrW)
    (s : State) : hostCopy c dst src s = .next { s with mem := s.mem.putBytes dst (s.mem.bytesAt src 32) } := by
  simp [hostCopy, inSpace, hsrc, hostWrite_of_le, hdst]

/-- A copied range holds what the source range held before, overlapping or not. -/
theorem byteAt_copy_inside {m : Memory} (h : m.wf = true) (dst src : Nat) {n i : Nat} (hi : i < n) :
    (m.putBytes dst (m.bytesAt src n)).byteAt (dst + i) = m.byteAt (src + i) := by
  rw [byteAt_putBytes_inside h dst i _ (by rwa [bytesAt_length]), bytesAt_getD m src hi]

theorem byteAt_copy_outside (m : Memory) (src : Nat) {dst n y : Nat} (h : y < dst ∨ dst + n ≤ y) :
    (m.putBytes dst (m.bytesAt src n)).byteAt y = m.byteAt y :=
  byteAt_putBytes_outside m dst y _ (by rwa [bytesAt_length])

/-- Settles O48: taking the action changes the agents and the schedule alone, and then each line sets its range. -/
theorem hostLinesSetMemAndPerm : Obligations.HostLinesSetMemAndPerm := by
  unfold Obligations.HostLinesSetMemAndPerm
  intro s k rest ag act left ha hs hk hl hn hmem hperm
  obtain ⟨t, ht⟩ : ∃ t, State.takeAction { s with schedule := rest } k = some (act, t) := ⟨_, takeAction_of hk hl hn⟩
  obtain ⟨htmem, htperm, htlatches, htabort, -, htdraws⟩ : t.mem = s.mem ∧ t.perm = s.perm ∧ t.latches = s.latches ∧
      t.abort = s.abort ∧ t.schedule = rest ∧ t.draws = s.draws := takeAction_frame ht
  refine ⟨?map, ?write, ?copy⟩
  case map =>
    rintro x n perm rfl hin
    have hstep := (step_map ha hs ht).trans (hostMap_of_le hin perm t)
    rw [htperm] at hstep
    exact ⟨_, hstep, htmem, htlatches, htabort, htdraws, fun i hi => permAt_putRange_inside hperm x perm hi,
      fun y hy => permAt_putRange_outside s.perm x y perm n hy⟩
  case write =>
    rintro x bytes rfl hin
    have hstep := (step_write ha hs ht).trans (hostWrite_of_le hin t)
    rw [htmem] at hstep
    exact ⟨_, hstep, htperm, htlatches, htabort, htdraws, fun i hi => byteAt_putBytes_inside hmem x i bytes hi,
      fun y hy => byteAt_putBytes_outside s.mem x y bytes hy⟩
  case copy =>
    rintro dst src rfl hdst hsrc
    have hstep := (step_copy ha hs ht).trans (hostCopy_of_le hdst hsrc t)
    rw [htmem] at hstep
    refine ⟨_, hstep, htperm, htlatches, htabort, htdraws, ?_⟩
    dsimp only
    exact ⟨fun i hi => byteAt_copy_inside hmem dst src hi, fun y hy => byteAt_copy_outside s.mem src hy⟩

end Sys2Proof.Machine

/-! Codec: the bit fields and bytes of a value, DECODE and ENCODE as inverses, and what a stage latches and leaves
unchanged (spec 40_codec R61 to R67). -/

namespace Sys2Proof.Machine

/-! ## Bit fields -/

theorem testBit_bitField (v lo n i : Nat) : (bitField v lo n).testBit i = (decide (i < n) && v.testBit (lo + i)) := by
  rw [bitField, Nat.testBit_mod_two_pow, Nat.testBit_div_two_pow, Nat.add_comm]

/-- A field inside a field is a field of the whole value, as byte j of limb k is of x (40_codec R63). -/
theorem bitField_bitField {lo n lo' n' : Nat} (v : Nat) (h : lo' + n' ≤ n) :
    bitField (bitField v lo n) lo' n' = bitField v (lo + lo') n' := by
  refine Nat.eq_of_testBit_eq fun i => ?_
  simp only [testBit_bitField, Nat.add_assoc]
  by_cases hi : i < n'
  · have hin : lo' + i < n := by omega
    simp [hin]
  · simp [hi]

/-! ## ENCODE and DECODE, byte by byte and bit by bit -/

/-- Byte i of ENCODE(x) is bits 8i + 7 to 8i of x, the limbs gone (40_codec R63). -/
theorem encodeVal_get_eq_bitField (x : Nat) {i : Nat} (hi : i < 32) :
    (encodeVal x).get i = BitVec.ofNat 8 (bitField x (8 * i) 8) := by
  have hget := encodeVal_get x (k := i / 8) (j := i % 8) (by omega) (by omega)
  have hlo : 64 * (i / 8) + 8 * (i % 8) = 8 * i := by omega
  rwa [Nat.div_add_mod, bitField_bitField x (by omega), hlo] at hget

theorem toNat_encodeVal_get (x : Nat) {i : Nat} (hi : i < 32) :
    ((encodeVal x).get i).toNat = x / 2 ^ (8 * i) % 256 := by
  simp [encodeVal_get_eq_bitField x hi, bitField]

theorem testBit_decodeBuf (buf : Buf) {i : Nat} (hi : i < 256) :
    (decodeBuf buf).testBit i = (buf.get (i / 8)).getLsbD (i % 8) := by
  obtain ⟨-, -, -, hbits⟩ := bufferValueIsLittleEndian buf
  exact hbits i hi

/-- Bits 8i + 7 to 8i of DECODE(buf) are byte i of buf. -/
theorem bitField_decodeBuf (buf : Buf) {i : Nat} (hi : i < 32) :
    bitField (decodeBuf buf) (8 * i) 8 = (buf.get i).toNat := by
  refine Nat.eq_of_testBit_eq fun j => ?_
  rw [testBit_bitField, BitVec.testBit_toNat]
  by_cases hj : j < 8
  · have hbyte : (8 * i + j) / 8 = i := by omega
    have hbit : (8 * i + j) % 8 = j := by omega
    simp [hj, testBit_decodeBuf buf (i := 8 * i + j) (by omega), hbyte, hbit]
  · simp [hj, BitVec.getLsbD_of_ge _ _ (Nat.le_of_not_lt hj)]

/-! ## The round trips (40_codec R65, R66) -/

/-- ENCODE keeps the low 256 bits of a number: bit i goes to bit i mod 8 of byte i div 8, where DECODE reads it. -/
theorem decodeBuf_encodeVal (x : Nat) : decodeBuf (encodeVal x) = x % 2 ^ 256 := by
  refine Nat.eq_of_testBit_eq fun i => ?_
  rw [Nat.testBit_mod_two_pow]
  by_cases hi : i < 256
  · rw [testBit_decodeBuf _ hi, encodeVal_get_eq_bitField x (by omega), BitVec.getLsbD_ofNat, testBit_bitField,
      Nat.div_add_mod]
    simp [hi, Nat.mod_lt]
  · have hpow : 2 ^ 256 ≤ 2 ^ i := Nat.pow_le_pow_right (by omega) (Nat.le_of_not_lt hi)
    simp [hi, Nat.testBit_lt_two_pow ((decodeBuf_lt _).trans_le hpow)]

theorem decodeBuf_encodeVal_of_lt {x : Nat} (h : x < 2 ^ 256) : decodeBuf (encodeVal x) = x := by
  rw [decodeBuf_encodeVal, Nat.mod_eq_of_lt h]

/-- Every byte of a buffer comes back, canonical or not: no pattern is reduced (40_codec R62). -/
theorem encodeVal_decodeBuf (buf : Buf) : encodeVal (decodeBuf buf) = buf :=
  Buf.ext_get fun i hi => by
    rw [encodeVal_get_eq_bitField _ hi, bitField_decodeBuf buf hi, BitVec.ofNat_toNat, BitVec.setWidth_eq]

/-- Settles O16: no bit of x is at 256 or above, so ENCODE keeps them all. -/
theorem decodeAfterEncode : Obligations.DecodeAfterEncode := fun _ => decodeBuf_encodeVal_of_lt

/-- Settles O17: the two round trips; the second makes ENCODE(x) the only buffer that decodes to x. -/
theorem codecIsBijective : Obligations.CodecIsBijective := by
  unfold Obligations.CodecIsBijective
  refine ⟨encodeVal_decodeBuf, decodeBuf_lt, fun x hx => ⟨decodeBuf_encodeVal_of_lt hx, ?_⟩⟩
  rintro buf rfl
  exact (encodeVal_decodeBuf buf).symm

/-! ## What DECODE and ENCODE latch -/

/-- Settles O18: DECODE latches the sum of the buffer's bytes, which fits the latch without reduction. -/
theorem decodeLatchesLittleEndianValue : Obligations.DecodeLatchesLittleEndianValue := by
  unfold Obligations.DecodeLatchesLittleEndianValue
  intro s side buf hbuf
  exact ⟨BitVec.ofNat 256 (decodeBuf buf), (toNat_decodeBuf buf).trans (decodeBuf_eq_sum_bytes buf),
    decodeStage_of_some hbuf⟩

/-- Settles O19: the buffer is ENCODE of R's value. -/
theorem encodeLatchesBytes : Obligations.EncodeLatchesBytes := by
  unfold Obligations.EncodeLatchesBytes
  intro s r hr
  exact ⟨encodeVal r.toNat, fun i hi => toNat_encodeVal_get r.toNat hi, encodeStage_of_some hr⟩

/-! ## The frame of a stage -/

@[simp] theorem setOperand_abuf (l : Latches) (side : Side) (v : U256) : (l.setOperand side v).abuf = l.abuf := by
  cases side <;> rfl

@[simp] theorem setOperand_bbuf (l : Latches) (side : Side) (v : U256) : (l.setOperand side v).bbuf = l.bbuf := by
  cases side <;> rfl

@[simp] theorem setOperand_obuf (l : Latches) (side : Side) (v : U256) : (l.setOperand side v).obuf = l.obuf := by
  cases side <;> rfl

theorem setOperand_a_of_ne {side : Side} (h : side ≠ .a) (l : Latches) (v : U256) :
    (l.setOperand side v).a = l.a := by
  cases side with
  | a => exact absurd rfl h
  | b => rfl

theorem setOperand_b_of_ne {side : Side} (h : side ≠ .b) (l : Latches) (v : U256) :
    (l.setOperand side v).b = l.b := by
  cases side with
  | a => rfl
  | b => exact absurd rfl h

/-- Settles O21: each stage's next state is its inversion lemma's, and FMUL takes no draw under this hardware's
REDUCE. -/
theorem stageFrame : Obligations.StageFrame := by
  unfold Obligations.StageFrame
  intro i s t hi h
  obtain ⟨hmem, hperm⟩ := exec_stage_mem_perm hi h
  refine ⟨fun x => by rw [hmem], fun x => by rw [hperm], ?_⟩
  cases i with
  | multiply a b o => exact absurd rfl (hi a b o)
  | decode side =>
    obtain ⟨buf, -, rfl⟩ := decodeStage_next h
    refine ⟨rfl, rfl, rfl, rfl, setOperand_abuf .., setOperand_bbuf .., fun ha => ?_, fun hb => ?_,
      fun _ => setOperand_r .., fun _ => setOperand_obuf ..⟩
    · exact setOperand_a_of_ne (fun hside => ha (congrArg _ hside)) _ _
    · exact setOperand_b_of_ne (fun hside => hb (congrArg _ hside)) _ _
  | encode =>
    obtain ⟨r, -, rfl⟩ := encodeStage_next h
    exact ⟨rfl, rfl, rfl, rfl, rfl, rfl, fun _ => rfl, fun _ => rfl, fun _ => rfl, fun hne => absurd rfl hne⟩
  | fmul =>
    obtain ⟨a, b, -, -, rfl⟩ := fmulStage_next h
    have hdraw : usesDraw Config.hardware a.toNat b.toNat = false := usesDraw_of_reduce rfl ..
    refine ⟨rfl, rfl, rfl, ?_, rfl, rfl, fun _ => rfl, fun _ => rfl, fun hne => absurd rfl hne, fun _ => rfl⟩
    simp [hdraw]

end Sys2Proof.Machine

/-! Multiplier: FMUL's value where the spec fixes it, the laws of the field, and the corner cases
(spec 41_multiplier R70 to R74). -/

namespace Sys2Proof.Machine

/-! ## FMUL's value, by operand and by mode -/

/-- An operand for which R70 fixes FMUL's result: canonical, or any value when NONCANON_MODE = REDUCE. The laws below
are stated for these, so each serves canonical operands and REDUCE alike. -/
def SpecifiedOperand (c : Config) (x : Nat) : Prop := c.noncanonMode = .REDUCE ∨ x < c.modulus

theorem fmul_of_canonical {c : Config} {a b : Nat} (ha : a < c.modulus) (hb : b < c.modulus) (n : Nat) :
    fmul c a b n = a * b % c.modulus := by
  simp [fmul, bothCanonical, ha, hb]

theorem fmul_of_specified {c : Config} {a b : Nat} (ha : SpecifiedOperand c a) (hb : SpecifiedOperand c b) (n : Nat) :
    fmul c a b n = a * b % c.modulus := by
  obtain hc | ha := ha
  · exact fmul_of_reduce hc a b n
  obtain hc | hb := hb
  · exact fmul_of_reduce hc a b n
  exact fmul_of_canonical ha hb n

/-- Under ANY an operand at or above P leaves the result to the draw (41_multiplier R74 (g)). -/
theorem fmul_of_any_of_noncanonical {c : Config} {a b : Nat} (hc : c.noncanonMode = .ANY)
    (hab : c.modulus ≤ a ∨ c.modulus ≤ b) (n : Nat) : fmul c a b n = anyDraw c n := by
  have hcan : bothCanonical c a b = false := by
    simpa only [bothCanonical, Bool.and_eq_false_iff, decide_eq_false_iff_not, Nat.not_lt] using hab
  simp [fmul, hcan, hc]

theorem anyDraw_lt {c : Config} (hc : 0 < c.modulus) (n : Nat) : anyDraw c n < c.modulus := Nat.mod_lt _ hc

/-- A result of FMUL is canonical, so it is itself an operand for which R70 fixes the next result. -/
theorem specifiedOperand_fmul {c : Config} (hc : 0 < c.modulus) (a b n : Nat) : SpecifiedOperand c (fmul c a b n) :=
  .inr (fmul_lt hc a b n)

/-- The hardware's FMUL latches the product's remainder modulo P for every two operands, and takes no draw. -/
theorem fmulStage_hardware_of_some {s : State} {a b : U256} (ha : s.latches.a = some a) (hb : s.latches.b = some b) :
    fmulStage Config.hardware s = .next { s with
      latches := { s.latches with r := some (BitVec.ofNat 256 (a.toNat * b.toNat % Config.hardware.modulus)) } } := by
  rw [fmulStage_of_some _ ha hb, fmul_of_reduce rfl, usesDraw_of_reduce rfl]
  rfl

/-- Settles O22: the remainder is below P, so the 256-bit latch holds it whole. -/
theorem fmulLatchesProduct : Obligations.FmulLatchesProduct := by
  unfold Obligations.FmulLatchesProduct
  intro s a b ha hb
  have hlt : a.toNat * b.toNat % Config.hardware.modulus < 2 ^ 256 :=
    (Nat.mod_lt _ hardware_modulus_pos).trans Config.hardware_admissible.modulus.2.2
  exact ⟨_, (BitVec.toNat_ofNat ..).trans (Nat.mod_eq_of_lt hlt), fmulStage_hardware_of_some ha hb⟩

/-! ## The exact remainder, below P -/

/-- Settles O23: 2^256 * 2^256 bounds the product, and FMUL is its division's remainder. -/
theorem fmulIsExactRemainder : Obligations.FmulIsExactRemainder := by
  unfold Obligations.FmulIsExactRemainder
  intro c a b n hP ha hb hmode
  have hfmul : fmul c a b n = a * b % c.modulus := by
    obtain hc | ⟨ha, hb⟩ := hmode
    · exact fmul_of_reduce hc a b n
    · exact fmul_of_canonical ha hb n
  have hprod : a * b < 2 ^ 512 := by
    rw [show 512 = 256 + 256 from rfl, Nat.pow_add]
    exact Nat.mul_lt_mul'' ha hb
  refine ⟨hprod, fmul_lt hP.1.pos a b n, ⟨a * b / c.modulus, ?_⟩, ?_⟩
  · rw [hfmul, Nat.div_add_mod']
  · rintro r hr ⟨q, hq⟩
    rw [hfmul, hq, Nat.mul_add_mod', Nat.mod_eq_of_lt hr]

/-- Settles O24: the product and the draw alike are taken modulo P. -/
theorem fmulResultIsCanonical : Obligations.FmulResultIsCanonical := fun _ a b n hP => fmul_lt hP.1.pos a b n

/-! ## The laws of the field -/

theorem fmul_comm {c : Config} {a b : Nat} (ha : SpecifiedOperand c a) (hb : SpecifiedOperand c b) (n m : Nat) :
    fmul c a b n = fmul c b a m := by
  rw [fmul_of_specified ha hb, fmul_of_specified hb ha, Nat.mul_comm]

theorem fmul_assoc {c : Config} (hc : 0 < c.modulus) {a b d : Nat} (ha : SpecifiedOperand c a)
    (hb : SpecifiedOperand c b) (hd : SpecifiedOperand c d) (n m : Nat) :
    fmul c (fmul c a b n) d m = fmul c a (fmul c b d n) m := by
  rw [fmul_of_specified (specifiedOperand_fmul hc a b n) hd, fmul_of_specified ha (specifiedOperand_fmul hc b d n),
    fmul_of_specified ha hb, fmul_of_specified hb hd, Nat.mod_mul_mod, Nat.mul_mod_mod, Nat.mul_assoc]

theorem fmul_one {c : Config} (hc : 1 < c.modulus) {a : Nat} (ha : SpecifiedOperand c a) (n : Nat) :
    fmul c a 1 n = a % c.modulus := by
  rw [fmul_of_specified ha (.inr hc), Nat.mul_one]

theorem fmul_zero {c : Config} (hc : 0 < c.modulus) {a : Nat} (ha : SpecifiedOperand c a) (n : Nat) :
    fmul c a 0 n = 0 := by
  rw [fmul_of_specified ha (.inr hc), Nat.mul_zero, Nat.zero_mod]

/-- P - 1 acts as -1: (P - 1) b and P - b both become a multiple of P when b is added. -/
theorem pred_mul_mod {p b : Nat} (hp : 0 < p) (hb : b ≤ p) : (p - 1) * b % p = (p - b) % p := by
  have hmul : (p - 1) * b + b = p * b := by rw [← Nat.succ_mul, Nat.succ_eq_add_one, Nat.sub_add_cancel hp]
  have hsub : p - b + b = p := Nat.sub_add_cancel hb
  refine Nat.ModEq.add_right_cancel' b (?_ : ((p - 1) * b + b) % p = (p - b + b) % p)
  rw [hmul, hsub, Nat.mul_mod_right, Nat.mod_self]

theorem fmul_pred {c : Config} (hc : 0 < c.modulus) {b : Nat} (hb : b < c.modulus) (n : Nat) :
    fmul c (c.modulus - 1) b n = (c.modulus - b) % c.modulus := by
  rw [fmul_of_canonical (Nat.sub_one_lt_of_lt hc) hb, pred_mul_mod hc hb.le]

theorem fmul_pred_pred {c : Config} (hc : 1 < c.modulus) (n : Nat) :
    fmul c (c.modulus - 1) (c.modulus - 1) n = 1 := by
  have hpos : 0 < c.modulus := Nat.zero_lt_of_lt hc
  rw [fmul_pred hpos (Nat.sub_one_lt_of_lt hpos), Nat.sub_sub_self hpos, Nat.mod_eq_of_lt hc]

/-- P is prime, so P divides the product of two canonical operands only through an operand that is 0. -/
theorem eq_zero_or_eq_zero_of_fmul_eq_zero {c : Config} (hc : c.modulus.Prime) {a b n : Nat} (ha : a < c.modulus)
    (hb : b < c.modulus) (h : fmul c a b n = 0) : a = 0 ∨ b = 0 := by
  rw [fmul_of_canonical ha hb] at h
  obtain hdvd | hdvd := hc.dvd_mul.mp (Nat.dvd_of_mod_eq_zero h)
  · exact .inl (Nat.eq_zero_of_dvd_of_lt hdvd ha)
  · exact .inr (Nat.eq_zero_of_dvd_of_lt hdvd hb)

/-- Settles O25: canonical operands and, under REDUCE, all operands are specified, and for those the laws are proved;
a canonical a is its own remainder. -/
theorem fmulFieldLaws : Obligations.FmulFieldLaws := by
  unfold Obligations.FmulFieldLaws
  rintro c n m ⟨hprime, -, -⟩
  refine ⟨fun a b d ha hb hd => ?_, fun hmode a b d => ?_⟩
  · exact ⟨fmul_comm (.inr ha) (.inr hb) n m, fmul_assoc hprime.pos (.inr ha) (.inr hb) (.inr hd) n m,
      (fmul_one hprime.one_lt (.inr ha) n).trans (Nat.mod_eq_of_lt ha), fmul_zero hprime.pos (.inr ha) n,
      fmul_pred_pred hprime.one_lt n, eq_zero_or_eq_zero_of_fmul_eq_zero hprime ha hb⟩
  · exact ⟨fmul_comm (.inl hmode) (.inl hmode) n m,
      fmul_assoc hprime.pos (.inl hmode) (.inl hmode) (.inl hmode) n m, fmul_one hprime.one_lt (.inl hmode) n,
      fmul_zero hprime.pos (.inl hmode) n⟩

/-! ## The corner cases -/

theorem zero_fmul {c : Config} (hc : 0 < c.modulus) {b : Nat} (hb : SpecifiedOperand c b) (n : Nat) :
    fmul c 0 b n = 0 :=
  (fmul_comm (.inr hc) hb n n).trans (fmul_zero hc hb n)

theorem one_fmul {c : Config} (hc : 1 < c.modulus) {b : Nat} (hb : SpecifiedOperand c b) (n : Nat) :
    fmul c 1 b n = b % c.modulus :=
  (fmul_comm (.inr hc) hb n n).trans (fmul_one hc hb n)

theorem fmul_pred_of_ne_zero {c : Config} {b : Nat} (hb : b < c.modulus) (hne : b ≠ 0) (n : Nat) :
    fmul c (c.modulus - 1) b n = c.modulus - b := by
  have hpos : 0 < c.modulus := Nat.zero_lt_of_lt hb
  rw [fmul_pred hpos hb, Nat.mod_eq_of_lt (Nat.sub_lt hpos (Nat.pos_of_ne_zero hne))]

/-- Under REDUCE the operand P counts as 0 (41_multiplier R74 (e)). -/
theorem fmul_modulus_of_reduce {c : Config} (hc : c.noncanonMode = .REDUCE) (b n : Nat) : fmul c c.modulus b n = 0 := by
  rw [fmul_of_reduce hc, Nat.mul_mod_right]

/-- Settles O26: (a) to (d) for canonical operands, (e) and (f) under REDUCE, (g) under ANY. -/
theorem fmulCornerCases : Obligations.FmulCornerCases := by
  unfold Obligations.FmulCornerCases
  rintro c n a b ⟨hprime, -, -⟩
  refine ⟨fun ha hb => ?_, fun hmode => ?_, fun hmode hab => ?_⟩
  · exact ⟨zero_fmul hprime.pos (.inr hb) n, fmul_zero hprime.pos (.inr ha) n,
      (one_fmul hprime.one_lt (.inr hb) n).trans (Nat.mod_eq_of_lt hb), fmul_pred_pred hprime.one_lt n,
      fmul_pred hprime.pos hb n, fun hne => fmul_pred_of_ne_zero hb hne n, fmul_of_canonical ha ha n⟩
  · exact ⟨fmul_modulus_of_reduce hmode b n, fmul_one hprime.one_lt (.inl hmode) n⟩
  · exact ⟨fmul_of_any_of_noncanonical hmode hab n, anyDraw_lt hprime.pos n⟩

end Sys2Proof.Machine

/-! Boundary: the step that makes a call, what an admitted call answers, which abort a call takes, and the
end-to-end example (spec 42_ffi_boundary R78 to R90). -/

namespace Sys2Proof.Machine

/-! ## The step that makes a call -/

/-- The pointers of a decoded call are taken modulo 2^ADDR_W, so a descriptor decodes to a well-formed call alone. -/
theorem wellFormed_of_decodeDescriptor {c : Config} {bytes : List Byte} {i : Instr}
    (h : decodeDescriptor c bytes = .ok i) : wellFormed c i = true := by
  unfold decodeDescriptor at h
  split at h
  · obtain ⟨-, rfl⟩ := decodeCallWords_eq_ok h
    have hlt (w : Nat) : pointerField c w < 2 ^ c.addrW := Nat.mod_lt _ (Nat.two_pow_pos _)
    exact (wellFormed_multiply_iff ..).mpr ⟨hlt _, hlt _, hlt _⟩
  · cases h

/-- A call whose descriptor decodes is run (30_encoding R60). -/
theorem step_call_of_ok {s t : State} {k : Nat} {rest : List Event} {d : List Byte} {i : Instr} (ha : s.abort = none)
    (hs : s.schedule = .agent k :: rest) (ht : State.takeAction { s with schedule := rest } k = some (.call d, t))
    (hd : decodeDescriptor Config.hardware d = .ok i) : step s = exec i t := by
  rw [step_live ha, fetch_agent hs]
  simp [agentTurn, ht, hd, fetched]

/-- Settles O6: the agent's turn is the decoded call, in the state its turn leaves. -/
theorem stepRunsDecodedCall : Obligations.StepRunsDecodedCall := by
  unfold Obligations.StepRunsDecodedCall
  intro s k rest ag d left i ha hs hk hl hn hd
  exact ⟨wellFormed_of_decodeDescriptor hd,
    step_call_of_ok ha hs (takeAction_of (s := { s with schedule := rest }) hk hl hn) hd⟩

/-! ## A call on this hardware: completed or aborted -/

/-- Settles O27: the boundary's four steps on this hardware, where no draw is taken. -/
theorem multiplyWritesProduct : Obligations.MultiplyWritesProduct := fun _ _ _ _ => multiply_hardware_of_admitted

/-- Settles O31: a call that is not admitted takes the abort of its validation. -/
theorem everyCallEnds : Obligations.EveryCallEnds := by
  unfold Obligations.EveryCallEnds
  intro s a b o
  cases hv : validate Config.hardware s a b o with
  | some cause => exact ⟨_, multiply_abort hv, .inr ⟨cause, rfl, rfl⟩⟩
  | none => exact ⟨_, multiply_hardware_of_admitted ((validate_none_iff ..).mp hv), .inl rfl⟩

/-- Settles O29: the two answers a call has, each read field by field. -/
theorem multiplyFrame : Obligations.MultiplyFrame := by
  unfold Obligations.MultiplyFrame
  intro s t a b o h
  rw [exec_multiply] at h
  by_cases hadm : CallAdmitted Config.hardware s a b o
  · rw [multiply_hardware_of_admitted hadm] at h
    obtain rfl := next_inj h
    refine ⟨fun x hx => byteAt_putBytes_outside _ _ _ _ ?_, fun hn => absurd hadm hn, fun _ => rfl, rfl, rfl, rfl, rfl,
      fun _ => rfl, fun hn => absurd hadm hn⟩
    rwa [Buf.length_eq]
  · obtain ⟨cause, hcause⟩ := multiply_aborts_of_not_admitted hadm
    obtain rfl := next_inj (hcause.symm.trans h)
    exact ⟨fun _ _ => rfl, fun _ _ => rfl, fun _ => rfl, rfl, rfl, rfl, rfl, fun ha => absurd ha hadm,
      fun _ => ⟨cause, rfl⟩⟩

/-! ## The out buffer after a completed call, in every configuration -/

/-- The out buffer reads back the buffer written to it. -/
theorem bufAt_of_putBytes {m : Memory} (hwf : m.wf = true) {p : Nat} {buf : Buf} {t : State}
    (h : t.mem = m.putBytes p buf.bytes) : t.bufAt p = buf := by
  refine Buf.ext_bytes ?_
  have hread := bytesAt_putBytes_same hwf p buf.bytes
  rwa [buf.length_eq, ← h, ← bufAt_bytes] at hread

theorem productOf_lt {c : Config} (hP : Config.IsModulus c.modulus) (x y : Buf) (n : Nat) :
    productOf c x y n < c.modulus := fmul_lt hP.1.pos ..

theorem productOf_lt_two_pow {c : Config} (hP : Config.IsModulus c.modulus) (x y : Buf) (n : Nat) :
    productOf c x y n < 2 ^ 256 := (productOf_lt hP x y n).trans hP.2.2

/-- A call that step 1 admits completes, records no abort, and its out buffer is ENCODE of the product of the input
buffers as they were at the call, wherever the three buffers lie (42_ffi R82, R83). -/
theorem multiply_output_of_admission {c : Config} {s : State} {a b o : Nat} (hP : Config.IsModulus c.modulus)
    (hwf : s.mem.wf = true) (h : admission c s a b o = .admitted) :
    ∃ t, multiply c a b o s = .next t ∧ t.abort = s.abort ∧
      t.bufAt o = encodeVal (productOf c (s.bufAt a) (s.bufAt b) s.draws) := by
  have hlatch : (BitVec.ofNat 256 (productOf c (s.bufAt a) (s.bufAt b) s.draws)).toNat =
      productOf c (s.bufAt a) (s.bufAt b) s.draws := by
    rw [BitVec.toNat_ofNat, Nat.mod_eq_of_lt (productOf_lt_two_pow hP ..)]
  exact ⟨_, multiply_admitted h, rfl, bufAt_of_putBytes hwf (by rw [hlatch])⟩

/-- Settles O28: the hardware's product is the remainder, and ENCODE keeps it. -/
theorem outputBufferHoldsCanonicalProduct : Obligations.OutputBufferHoldsCanonicalProduct := by
  unfold Obligations.OutputBufferHoldsCanonicalProduct
  intro s a b o hwf hadm
  have hP := Config.hardware_admissible.modulus
  obtain ⟨t, ht, -, hout⟩ := multiply_output_of_admission hP hwf ((hardware_admission_admitted_iff s a b o).mpr hadm)
  have hprod : productOf Config.hardware (s.bufAt a) (s.bufAt b) s.draws =
      decodeBuf (s.bufAt a) * decodeBuf (s.bufAt b) % Config.hardware.modulus := fmul_of_reduce rfl ..
  have hdec := congrArg decodeBuf hout
  rw [decodeBuf_encodeVal_of_lt (productOf_lt_two_pow hP ..)] at hdec
  refine ⟨t, ht, hdec.trans hprod, hdec.trans_lt (productOf_lt hP ..), fun i hi => ?_⟩
  rw [← bufAt_get t o hi, hout, toNat_encodeVal_get _ hi, hprod]

/-- Under REFUSE a call whose out buffer overlaps an input is refused, once its pointers are admitted (R78, R83). -/
theorem multiply_refused {c : Config} {s : State} {a b o : Nat} (hadm : CallAdmitted c s a b o)
    (hmode : c.aliasOutMode = .REFUSE) (hov : outOverlaps a b o = true) :
    multiply c a b o s = .refused (.aliasOut o) := by
  have hrefuse : admission c s a b o = .refuse := by
    simp [admission, (validate_none_iff ..).mpr hadm, hmode, hov]
  simp [multiply, hrefuse]

/-- Settles O34: a call that is not refused reads both inputs before it writes, so its result does not depend on where
the buffers lie. -/
theorem overlappingBuffers : Obligations.OverlappingBuffers := by
  unfold Obligations.OverlappingBuffers
  intro c s a b o hP hwf hadm
  refine ⟨multiply_refused hadm, fun hok => ?_⟩
  have hnot : ¬(c.aliasOutMode = .REFUSE ∧ outOverlaps a b o = true) := by
    rintro ⟨hmode, hov⟩
    simp [hmode, hov] at hok
  obtain ⟨t, ht, habort, hout⟩ :=
    multiply_output_of_admission hP hwf ((admission_admitted_iff ..).mpr ⟨hadm, hnot⟩)
  refine ⟨t, ht, habort, ?_, fun i hi => ?_⟩
  · rw [hout]
    exact decodeBuf_encodeVal_of_lt (productOf_lt_two_pow hP ..)
  · rw [← bufAt_get t o hi, hout]
    rfl

/-! ## The nine aborts -/

theorem checkPtr_null (c : Config) (s : State) (k : Access) {p : Nat} (h : p = 0) :
    checkPtr c s k p = some .null := by
  simp [checkPtr, h]

theorem checkPtr_misaligned {c : Config} {s : State} {k : Access} {p : Nat} (h0 : p ≠ 0) (hal : p % c.align ≠ 0) :
    checkPtr c s k p = some .misaligned := by
  simp [checkPtr, h0, hal]

/-- The cause column of codes 3, 6 and 9 says that the buffer is not accessible (60_exceptions R92). -/
theorem unreachable_iff (c : Config) (s : State) (k : Access) (p : Nat) :
    Unreachable c s k p ↔ accessible c s k p = false := by
  rw [← Bool.not_eq_true, accessible_iff, not_and_or, not_le, Unreachable]
  simp

theorem checkPtr_unreachable {c : Config} {s : State} {k : Access} {p : Nat} (h0 : p ≠ 0) (hal : p % c.align = 0)
    (h : Unreachable c s k p) : checkPtr c s k p = some .inaccessible :=
  checkPtr_inaccessible h0 hal ((unreachable_iff ..).mp h)

section firstFailure

variable {c : Config} {s : State} {a b o : Nat} {chk : PtrCheck}

theorem ptrAbort_of_checkPtr {arg : PtrArg} {p : Nat} (h : checkPtr c s (accessOf arg) p = some chk) :
    ptrAbort c s arg p = some (abortOf arg chk p) := by
  rw [ptrAbort, h, Option.map_some]

/-- A failing check of a is the call's abort (42_ffi R80). -/
theorem multiply_abort_a (b o : Nat) (h : checkPtr c s .READ a = some chk) :
    multiply c a b o s = .next (raiseAbort (abortOf .a chk a) s) :=
  multiply_abort (by rw [validate_eq_or, ptrAbort_of_checkPtr (arg := .a) h, Option.some_or])

/-- A failing check of b is the call's abort when a passed. -/
theorem multiply_abort_b (o : Nat) (ha : Admitted c s .READ a) (h : checkPtr c s .READ b = some chk) :
    multiply c a b o s = .next (raiseAbort (abortOf .b chk b) s) :=
  multiply_abort (by
    rw [validate_eq_or, ptrAbort_of_admitted (arg := .a) ha, ptrAbort_of_checkPtr (arg := .b) h, Option.none_or,
      Option.some_or])

/-- A failing check of out is the call's abort when a and b passed. -/
theorem multiply_abort_out (ha : Admitted c s .READ a) (hb : Admitted c s .READ b)
    (h : checkPtr c s .WRITE o = some chk) : multiply c a b o s = .next (raiseAbort (abortOf .out chk o) s) :=
  multiply_abort (by
    rw [validate_eq_or, ptrAbort_of_admitted (arg := .a) ha, ptrAbort_of_admitted (arg := .b) hb,
      ptrAbort_of_checkPtr (arg := .out) h, Option.none_or, Option.none_or])

end firstFailure

/-- Settles O37: for each pointer, its first failing check, when the pointers before it passed. -/
theorem multiplyAborts : Obligations.MultiplyAborts := by
  unfold Obligations.MultiplyAborts
  intro s a b o c
  exact ⟨fun h => multiply_abort_a b o (checkPtr_null c s _ h),
    fun h0 hal => multiply_abort_a b o (checkPtr_misaligned h0 hal),
    fun h0 hal h => multiply_abort_a b o (checkPtr_unreachable h0 hal h),
    fun ha h => multiply_abort_b o ha (checkPtr_null c s _ h),
    fun ha h0 hal => multiply_abort_b o ha (checkPtr_misaligned h0 hal),
    fun ha h0 hal h => multiply_abort_b o ha (checkPtr_unreachable h0 hal h),
    fun ha hb h => multiply_abort_out ha hb (checkPtr_null c s _ h),
    fun ha hb h0 hal => multiply_abort_out ha hb (checkPtr_misaligned h0 hal),
    fun ha hb h0 hal h => multiply_abort_out ha hb (checkPtr_unreachable h0 hal h),
    fun hadm => ⟨_, multiply_hardware_of_admitted hadm, rfl⟩⟩

/-! ## Validation and memory -/

theorem checkPtr_congr {c : Config} {s t : State} {k : Access} {p : Nat} (h : t.perm = s.perm) :
    checkPtr c t k p = checkPtr c s k p := by
  have hacc : accessible c t k p = accessible c s k p := by rw [accessible, accessible, h]
  rw [checkPtr, checkPtr, hacc]

/-- Validation reads the permission map alone (42_ffi R80). -/
theorem validate_congr {c : Config} {s t : State} {a b o : Nat} (h : t.perm = s.perm) :
    validate c t a b o = validate c s a b o := by
  simp only [validate_eq_or, ptrAbort, checkPtr_congr h]

/-- Settles O40: another memory leaves the permission map as it is, and with it the answer of validation. -/
theorem validationReadsNoMemory : Obligations.ValidationReadsNoMemory := by
  unfold Obligations.ValidationReadsNoMemory
  intro s m a b o
  exact ⟨fun cause h => multiply_abort ((validate_congr rfl).trans h),
    fun hadm => ⟨_, multiply_hardware_of_admitted ((callAdmitted_congr rfl).mpr hadm), rfl⟩⟩

/-! ## The end-to-end example -/

/-- ENCODE of a value of one byte: that byte, then 31 bytes 00. -/
theorem encodeVal_bytes_of_lt {x : Nat} (hx : x < 256) :
    (encodeVal x).bytes = BitVec.ofNat 8 x :: List.replicate 31 0 := by
  refine List.ext_getElem (by simp [Buf.length_eq]) fun i hi _ => ?_
  have hi32 : i < 32 := by rwa [Buf.length_eq] at hi
  have hget : (encodeVal x).bytes[i] = (encodeVal x).get i := by simp [Buf.get, hi]
  refine hget.trans (BitVec.eq_of_toNat_eq ((toNat_encodeVal_get x hi32).trans ?_))
  cases i with
  | zero => simp
  | succ j =>
    have hpow : x < 2 ^ (8 * (j + 1)) := hx.trans_le (Nat.pow_le_pow_right (n := 2) (i := 8) (by decide) (by omega))
    rw [Nat.div_eq_of_lt hpow, List.getElem_cons_succ, List.getElem_replicate]
    rfl

/-- A buffer that holds one byte and then 31 bytes 00 decodes to that byte. -/
theorem decodeBuf_bufAt_of_byte {s : State} {p x : Nat} (hx : x < 256)
    (h : s.mem.bytesAt p 32 = BitVec.ofNat 8 x :: List.replicate 31 0) : decodeBuf (s.bufAt p) = x := by
  have hbuf : s.bufAt p = encodeVal x := Buf.ext_bytes (by rw [bufAt_bytes, h, encodeVal_bytes_of_lt hx])
  rw [hbuf, decodeBuf_encodeVal_of_lt (hx.trans (by norm_num))]

theorem admitted_iff (c : Config) (s : State) (k : Access) (p : Nat) :
    Admitted c s k p ↔ p ≠ 0 ∧ p % c.align = 0 ∧ p + 31 ≤ 2 ^ c.addrW - 1 ∧
      ∀ i < 32, permits k (s.perm.at (p + i)) = true := by
  rw [Admitted, accessible_iff]

/-- The permissions of R90 admit its call. -/
theorem endToEnd_callAdmitted {c : Config} {s : State} (hw : c.addrW = 64) (hal : c.align = 8)
    (hin : ∀ x, 0x1000 ≤ x → x < 0x1040 → s.perm.at x = .R)
    (hout : ∀ x, 0x1040 ≤ x → x < 0x1060 → s.perm.at x = .RW) : CallAdmitted c s 0x1000 0x1020 0x1040 := by
  simp only [CallAdmitted, admitted_iff, hw, hal, permits_read_iff, permits_write_iff]
  refine ⟨⟨by decide, by decide, by decide, fun i hi => .inl (hin _ ?_ ?_)⟩,
    ⟨by decide, by decide, by decide, fun i hi => .inl (hin _ ?_ ?_)⟩,
    ⟨by decide, by decide, by decide, fun i hi => hout _ ?_ ?_⟩⟩ <;> omega

/-- Settles O36: 2 and 3 are canonical for every P from 7 on, and so is their product 6. -/
theorem endToEndExample : Obligations.EndToEndExample := by
  unfold Obligations.EndToEndExample
  intro c s hP hw hal hwf hin hout h2 h3
  have ha : decodeBuf (s.bufAt 0x1000) = 2 := decodeBuf_bufAt_of_byte (by decide) h2
  have hb : decodeBuf (s.bufAt 0x1020) = 3 := decodeBuf_bufAt_of_byte (by decide) h3
  have hadm : admission c s 0x1000 0x1020 0x1040 = .admitted :=
    (admission_admitted_iff ..).mpr ⟨endToEnd_callAdmitted hw hal hin hout, fun h => absurd h.2 (by decide)⟩
  have hprod : productOf c (s.bufAt 0x1000) (s.bufAt 0x1020) s.draws = 6 := by
    obtain ⟨-, h7, -⟩ := hP
    rw [productOf, ha, hb, fmul_of_canonical (by omega) (by omega), Nat.mod_eq_of_lt (by omega)]
  obtain ⟨t, ht, habort, hbuf⟩ := multiply_output_of_admission hP hwf hadm
  refine ⟨ha, hb, t, ht, habort, ?_, fun x hx => ?_⟩
  · rw [← bufAt_bytes, hbuf, hprod]
    exact encodeVal_bytes_of_lt (by decide)
  · by_contra hne
    obtain ⟨-, hlo, hhi⟩ := (multiply_writes_out_buffer ht).2 x hne
    omega

end Sys2Proof.Machine

/-! Exceptions: which abort a call reports, what an abort leaves, who records one, and that two callers' calls on
exclusive buffers commute (spec 60_exceptions R91 to R104). -/

namespace Sys2Proof.Machine

/-! ## The smallest failing code -/

/-- A pointer of which none of its three causes of R92 holds passes its checks. -/
theorem admitted_of_no_cause {c : Config} {s : State} {k : Access} {p : Nat} (h0 : p ≠ 0) (hal : ¬ p % c.align ≠ 0)
    (h : ¬ Unreachable c s k p) : Admitted c s k p :=
  ⟨h0, not_not.mp hal, by rwa [unreachable_iff, Bool.not_eq_false] at h⟩

section causes

variable {c : Config} {s : State} {a b o : Nat}

theorem admitted_a_of_no_cause (h : ∀ n < 4, ¬ causeHolds c s a b o n) : Admitted c s .READ a :=
  admitted_of_no_cause (h 1 (by decide)) (h 2 (by decide)) (h 3 (by decide))

theorem admitted_b_of_no_cause (h : ∀ n < 7, ¬ causeHolds c s a b o n) : Admitted c s .READ b :=
  admitted_of_no_cause (h 4 (by decide)) (h 5 (by decide)) (h 6 (by decide))

theorem admitted_out_of_no_cause (h : ∀ n < 10, ¬ causeHolds c s a b o n) : Admitted c s .WRITE o :=
  admitted_of_no_cause (h 7 (by decide)) (h 8 (by decide)) (h 9 (by decide))

theorem callAdmitted_of_no_cause (h : ∀ n, ¬ causeHolds c s a b o n) : CallAdmitted c s a b o :=
  ⟨admitted_a_of_no_cause fun n _ => h n, admitted_b_of_no_cause fun n _ => h n,
    admitted_out_of_no_cause fun n _ => h n⟩

/-- A call that answers a next state keeps the abort record, or validation failed and it takes that abort. -/
theorem multiply_abort_cases {t : State} (h : multiply c a b o s = .next t) :
    t.abort = s.abort ∨ ∃ cause, validate c s a b o = some cause ∧ t = raiseAbort cause s := by
  obtain haborts | hadm := multiply_next_cases h
  · exact .inr haborts
  · rw [multiply_admitted hadm] at h
    obtain rfl := next_inj h
    exact .inl rfl

/-- The smallest code whose cause holds is the one recorded (60_exceptions R95): the codes below it say that the pointers
before it are admitted and that the earlier checks of its own pointer pass. -/
theorem multiply_reports_smallest {code : Nat} (h : causeHolds c s a b o code)
    (hmin : ∀ n < code, ¬ causeHolds c s a b o n) :
    ∃ cause, cause.code = code ∧ cause.ptr = causePtr a b o code ∧ multiply c a b o s = .next (raiseAbort cause s) := by
  have ha (h4 : 4 ≤ code) : Admitted c s .READ a := admitted_a_of_no_cause fun n hn => hmin n (by omega)
  have hb (h7 : 7 ≤ code) : Admitted c s .READ b := admitted_b_of_no_cause fun n hn => hmin n (by omega)
  match code with
  | 0 => exact h.elim
  | 1 => exact ⟨.nullA a, rfl, rfl, multiply_abort_a b o (checkPtr_null c s _ h)⟩
  | 2 => exact ⟨.misalignedA a, rfl, rfl, multiply_abort_a b o (checkPtr_misaligned (hmin 1 (by decide)) h)⟩
  | 3 =>
    exact ⟨.unreadableA a, rfl, rfl,
      multiply_abort_a b o (checkPtr_unreachable (hmin 1 (by decide)) (not_not.mp (hmin 2 (by decide))) h)⟩
  | 4 => exact ⟨.nullB b, rfl, rfl, multiply_abort_b o (ha (by decide)) (checkPtr_null c s _ h)⟩
  | 5 =>
    exact ⟨.misalignedB b, rfl, rfl,
      multiply_abort_b o (ha (by decide)) (checkPtr_misaligned (hmin 4 (by decide)) h)⟩
  | 6 =>
    exact ⟨.unreadableB b, rfl, rfl, multiply_abort_b o (ha (by decide))
      (checkPtr_unreachable (hmin 4 (by decide)) (not_not.mp (hmin 5 (by decide))) h)⟩
  | 7 => exact ⟨.nullOut o, rfl, rfl, multiply_abort_out (ha (by decide)) (hb (by decide)) (checkPtr_null c s _ h)⟩
  | 8 =>
    exact ⟨.misalignedOut o, rfl, rfl,
      multiply_abort_out (ha (by decide)) (hb (by decide)) (checkPtr_misaligned (hmin 7 (by decide)) h)⟩
  | 9 =>
    exact ⟨.unwritableOut o, rfl, rfl, multiply_abort_out (ha (by decide)) (hb (by decide))
      (checkPtr_unreachable (hmin 7 (by decide)) (not_not.mp (hmin 8 (by decide))) h)⟩
  | _ + 10 => exact h.elim

end causes

/-- Settles O38: the rows of R92 one by one; a call of which no cause holds is admitted, so its validation gives none. -/
theorem abortReportsSmallestFailingCode : Obligations.AbortReportsSmallestFailingCode := by
  unfold Obligations.AbortReportsSmallestFailingCode
  intro c s a b o
  refine ⟨fun code => multiply_reports_smallest, fun hnone t ht => ?_⟩
  obtain hkept | ⟨cause, hcause, -⟩ := multiply_abort_cases ht
  · exact hkept
  · rw [(validate_none_iff ..).mpr (callAdmitted_of_no_cause hnone)] at hcause
    cases hcause

/-! ## What an abort leaves, and who records one -/

/-- Settles O39: the call answers `raiseAbort`, which keeps memory, and a recorded abort stops every step. -/
theorem abortEffect : Obligations.AbortEffect := by
  unfold Obligations.AbortEffect
  intro s a b o cause h
  exact ⟨raiseAbort cause s, multiply_abort h, rfl, fun _ => rfl, fun _ _ => step_aborted rfl,
    successfulEnd_aborted rfl⟩

/-- Settles O41: a stage keeps the abort record, and a call changes it only by the abort of its validation. -/
theorem onlyValidationAborts : Obligations.OnlyValidationAborts := by
  unfold Obligations.OnlyValidationAborts
  intro i s t h hne
  by_cases hi : ∃ a b o, i = .multiply a b o
  · obtain ⟨a, b, o, rfl⟩ := hi
    obtain hkept | ⟨cause, hcause, rfl⟩ := multiply_abort_cases h
    · exact absurd hkept hne
    · exact ⟨a, b, o, cause, rfl, hcause, rfl⟩
  · obtain ⟨-, -, hkept, -⟩ := stageFrame i s t (fun a b o hab => hi ⟨a, b, o, hab⟩) h
    exact absurd hkept hne

/-! ## Two callers on exclusive buffers -/

/-- What any address reads after a byte sequence is written. -/
theorem byteAt_putBytes {m : Memory} (h : m.wf = true) (p : Nat) (l : List Byte) (x : Nat) :
    (m.putBytes p l).byteAt x = if p ≤ x ∧ x < p + l.length then l.getD (x - p) 0 else m.byteAt x := by
  split
  next hx =>
    obtain ⟨i, rfl⟩ := Nat.exists_eq_add_of_le hx.1
    rw [byteAt_putBytes_inside h p i l (by omega), Nat.add_sub_cancel_left]
  next hx => exact byteAt_putBytes_outside m p x l (by omega)

/-- Writes to ranges that share no address commute. -/
theorem putBytes_comm {m : Memory} (h : m.wf = true) {p q : Nat} {l l' : List Byte}
    (hpq : p + l.length ≤ q ∨ q + l'.length ≤ p) :
    (m.putBytes p l).putBytes q l' = (m.putBytes q l').putBytes p l := by
  have hp := wf_putBytes h p l
  have hq := wf_putBytes h q l'
  refine Memory.ext_byteAt (wf_putBytes hp q l') (wf_putBytes hq p l) fun x => ?_
  rw [byteAt_putBytes hp, byteAt_putBytes h, byteAt_putBytes hq, byteAt_putBytes h]
  by_cases hx : p ≤ x ∧ x < p + l.length
  · have hx' : ¬(q ≤ x ∧ x < q + l'.length) := by omega
    rw [if_neg hx', if_pos hx, if_pos hx]
  · rw [if_neg hx, if_neg hx]

theorem clearOf_buffer_iff (p q : Nat) : clearOf p (q, bufBytes) = true ↔ overlaps p q = false := by
  rw [overlaps_eq_false_iff]
  simp [clearOf, bufBytes]

theorem overlaps_comm (p q : Nat) : overlaps p q = overlaps q p := Bool.and_comm ..

/-- A call that an agent has next: the agent, its call's descriptor and pointers, and what is left of its program. -/
structure CallTurn where
  k : Nat
  agent : Agent
  descriptor : List Byte
  left : Script
  a : Nat
  b : Nat
  o : Nat

namespace CallTurn

variable {x y : CallTurn} {s : State}

/-- In this state the turn is its agent's next action, a call that passes validation. -/
structure Ready (x : CallTurn) (s : State) : Prop where
  agent : s.agents[x.k]? = some x.agent
  lost : x.agent.lost = false
  next : x.agent.program.next = some (.call x.descriptor, x.left)
  decodes : decodeDescriptor Config.hardware x.descriptor = .ok (.multiply x.a x.b x.o)
  admitted : CallAdmitted Config.hardware s x.a x.b x.o

/-- The out buffer of the turn's call (42_ffi R78). -/
def output (x : CallTurn) (s : State) : Buf :=
  encodeVal (decodeBuf (s.bufAt x.a) * decodeBuf (s.bufAt x.b) % Config.hardware.modulus)

/-- The state after the turn, its event already taken off the schedule. -/
def after (x : CallTurn) (s : State) : State :=
  { s with
    mem := s.mem.putBytes x.o (x.output s).bytes
    latches := Latches.empty
    agents := s.agents.set x.k { x.agent with program := x.left, index := x.agent.index + 1 } }

/-- Neither out buffer overlaps a buffer of the other turn's call. -/
structure Apart (x y : CallTurn) : Prop where
  first_avoids_inputs : outOverlaps y.a y.b x.o = false
  second_avoids_inputs : outOverlaps x.a x.b y.o = false
  outs_disjoint : overlaps x.o y.o = false

/-- The step of a ready turn (60_exceptions R104: the schedule is free). -/
theorem step_of_ready {rest : List Event} (ha : s.abort = none) (h : x.Ready s) :
    step { s with schedule := .agent x.k :: rest } = .next { x.after s with schedule := rest } := by
  have ht := takeAction_of (s := { s with schedule := rest }) h.agent h.lost h.next
  rw [step_call_of_ok (s := { s with schedule := .agent x.k :: rest }) ha rfl ht h.decodes, exec_multiply,
    multiply_hardware_of_admitted]
  · simp only [after, output, bufAt_eq]
  · exact (callAdmitted_congr rfl).mpr h.admitted

/-- Another agent's turn leaves a turn ready. -/
theorem Ready.after (hne : x.k ≠ y.k) (h : y.Ready s) : y.Ready (x.after s) where
  agent := (List.getElem?_set_ne hne).trans h.agent
  lost := h.lost
  next := h.next
  decodes := h.decodes
  admitted := (callAdmitted_congr rfl).mpr h.admitted

/-- The run of two ready turns of different agents, in this order. -/
theorem run_two {rest : List Event} (ha : s.abort = none) (hx : x.Ready s) (hy : y.Ready s) (hne : x.k ≠ y.k) :
    Host.Core.run Sys2Proof.core 2 { s with schedule := .agent x.k :: .agent y.k :: rest } =
      .next { y.after (x.after s) with schedule := rest } :=
  (run_next 1 (step_of_ready ha hx)).trans (run_next 0 (step_of_ready (s := x.after s) ha (hy.after hne)))

/-- A buffer that a turn's out buffer does not overlap is as before after the turn. -/
theorem bufAt_after (hx : x.Ready s) {p : Nat} (hp : overlaps x.o p = false) : (x.after s).bufAt p = s.bufAt p := by
  rw [← bufAt_of_not_overlaps (multiply_hardware_of_admitted hx.admitted) hp]
  exact bufAt_congr p rfl

/-- A turn computes the same output after a turn that writes none of its inputs. -/
theorem output_after (hx : x.Ready s) (h : outOverlaps y.a y.b x.o = false) : y.output (x.after s) = y.output s := by
  obtain ⟨ha, hb⟩ := Bool.or_eq_false_iff.mp h
  rw [output, bufAt_after hx ha, bufAt_after hx hb, ← output]

/-- Ready turns of different agents that are apart commute: each computes the same output before and after the other,
and the two outputs go to memory that does not overlap. -/
theorem after_comm (hwf : s.mem.wf = true) (hx : x.Ready s) (hy : y.Ready s) (hne : x.k ≠ y.k) (h : x.Apart y) :
    y.after (x.after s) = x.after (y.after s) := by
  have houts : x.o + (x.output s).bytes.length ≤ y.o ∨ y.o + (y.output s).bytes.length ≤ x.o := by
    simpa only [Buf.length_eq] using ((overlaps_eq_false_iff ..).mp h.outs_disjoint).symm
  have hmem : (y.after (x.after s)).mem = (x.after (y.after s)).mem := by
    show ((s.mem.putBytes _ _).putBytes _ (y.output (x.after s)).bytes) =
      ((s.mem.putBytes _ _).putBytes _ (x.output (y.after s)).bytes)
    rw [output_after hx h.first_avoids_inputs, output_after hy h.second_avoids_inputs, putBytes_comm hwf houts]
  have hagents : (y.after (x.after s)).agents = (x.after (y.after s)).agents := List.set_comm _ _ hne
  exact State.mk.injEq .. ▸ ⟨hmem, rfl, rfl, rfl, hagents, rfl, rfl⟩

/-! ## What BuffersExclusive says of two calls -/

theorem Ready.nextAction (h : x.Ready s) : s.nextAction x.k = some (.call x.descriptor) := by
  rw [State.nextAction, takeAction_of h.agent h.lost h.next, Option.map_some]

theorem Ready.accessPtrs (h : x.Ready s) :
    accessPtrs Config.hardware s (.call x.descriptor) = some (x.a, x.b, x.o) := by
  simp [Machine.accessPtrs, callPtrs, h.decodes, (hardware_admission_admitted_iff ..).mpr h.admitted]

theorem Ready.lt_length (h : x.Ready s) : x.k < s.agents.length := (List.getElem?_eq_some_iff.mp h.agent).1

/-- Under the premise of R44 two calls that agents have next are apart. -/
theorem apart_of_exclusive (h : BuffersExclusive Config.hardware s) (hx : x.Ready s) (hy : y.Ready s)
    (hne : x.k ≠ y.k) : x.Apart y := by
  have hpair := h x.k y.k hx.lt_length hy.lt_length hne
  simp only [exclusivePair, hx.nextAction, hy.nextAction, hx.accessPtrs, mayOverlapInTime, writeRanges, readRanges,
    hy.accessPtrs, List.all_cons, List.all_nil, Bool.and_true, Bool.and_eq_true, clearOf_buffer_iff] at hpair
  obtain ⟨⟨⟨hya, hyb⟩, houts⟩, hxa, hxb⟩ := hpair
  exact ⟨Bool.or_eq_false_iff.mpr ⟨hxa, hxb⟩,
    Bool.or_eq_false_iff.mpr ⟨overlaps_comm .. ▸ hya, overlaps_comm .. ▸ hyb⟩, houts⟩

end CallTurn

/-- Settles O50: the two turns are ready and apart, so they commute, and neither records an abort. -/
theorem exclusiveCallsCommute : Obligations.ExclusiveCallsCommute := by
  unfold Obligations.ExclusiveCallsCommute
  intro s j k rest agj agk dj dk lj lk aj bj oj ak bk ok hne ha hwf hexcl hj hk hlj hlk hnj hnk hdj hdk hadmj hadmk
  have hx : CallTurn.Ready ⟨j, agj, dj, lj, aj, bj, oj⟩ s := ⟨hj, hlj, hnj, hdj, hadmj⟩
  have hy : CallTurn.Ready ⟨k, agk, dk, lk, ak, bk, ok⟩ s := ⟨hk, hlk, hnk, hdk, hadmk⟩
  have hapart := CallTurn.apart_of_exclusive hexcl hx hy hne
  refine ⟨_, ?_, CallTurn.run_two ha hx hy hne, ?_⟩
  · exact ha
  · rw [CallTurn.after_comm hwf hx hy hne hapart]
    exact CallTurn.run_two ha hy hx hne.symm

end Sys2Proof.Machine

/-! Resets and hazards: a reset between calls and during one, a call whose buffers hold an earlier call's output, and
what of the state before a call the call does not see (spec 70_reset R107, R109, R115). -/

namespace Sys2Proof.Machine

/-! ## A reset between calls -/

/-- The event reset is `platformReset` in the state in which it is taken off the schedule (70_reset R107). -/
theorem step_reset {s : State} {rest : List Event} (ha : s.abort = none) (hs : s.schedule = .reset :: rest) :
    step s = .next (platformReset { s with schedule := rest }) := by
  simp [step_live ha, fetch, hs]

theorem callState_of_no_abort {s : State} (h : s.abort = none) : s.callState = .IDLE := by
  simp [State.callState, h]

/-- Settles O2: the step is `platformReset`, which sets the latches and the abort record alone. -/
theorem platformResetKeepsCallerMemory : Obligations.PlatformResetKeepsCallerMemory := by
  unfold Obligations.PlatformResetKeepsCallerMemory
  intro s rest ha hs
  exact ⟨_, step_reset ha hs, rfl, rfl, callState_of_no_abort rfl, fun _ => rfl, fun _ => rfl, rfl⟩

/-! ## The latches before a call -/

/-- Step 1 of a call reads the permission map alone (42_ffi R80). -/
theorem admission_congr {c : Config} {s t : State} {a b o : Nat} (h : t.perm = s.perm) :
    admission c t a b o = admission c s a b o := by
  rw [admission, admission, validate_congr h]

/-- A call computes on latches it has itself written (10_state R21). -/
theorem computeProduct_with_latches (c : Config) (a b : Nat) (s : State) (l : Latches) :
    computeProduct c a b { s with latches := l } = computeProduct c a b s := rfl

theorem raiseAbort_with_latches (cause : Abort) (s : State) (l : Latches) :
    raiseAbort cause { s with latches := l } = raiseAbort cause s := rfl

/-- In every configuration a call answers the same whatever the latches held: step 1 does not read them, an abort drops
them and an admitted call starts without them. -/
theorem multiply_with_latches (c : Config) (a b o : Nat) (s : State) (l : Latches) :
    multiply c a b o { s with latches := l } = multiply c a b o s := by
  have hadm : admission c { s with latches := l } a b o = admission c s a b o := admission_congr rfl
  unfold multiply
  rw [hadm]
  cases admission c s a b o with
  | abort cause => simp only [raiseAbort_with_latches]
  | refuse => rfl
  | admitted => simp only [computeProduct_with_latches]

/-- Settles O3: the call on this hardware is MULTIPLY, which does not see the latches. -/
theorem callIgnoresEarlierLatches : Obligations.CallIgnoresEarlierLatches := fun s l a b o =>
  multiply_with_latches Config.hardware a b o s l

/-! ## A call that reads an earlier call's output -/

/-- A call that answers a next state keeps memory canonical. -/
theorem multiply_keeps_mem_wf {c : Config} {s t : State} {a b o : Nat} (hwf : s.mem.wf = true)
    (h : multiply c a b o s = .next t) : t.mem.wf = true := by
  obtain ⟨cause, -, rfl⟩ | hadm := multiply_next_cases h
  · exact hwf
  · rw [multiply_admitted hadm] at h
    obtain rfl := next_inj h
    exact wf_putBytes hwf _ _

/-- The out buffer after an admitted call on this hardware decodes to the product modulo P. -/
theorem exec_multiply_decodes {s t : State} {a b o : Nat} (hwf : s.mem.wf = true)
    (hadm : CallAdmitted Config.hardware s a b o) (h : exec (.multiply a b o) s = .next t) :
    decodeBuf (t.bufAt o) = decodeBuf (s.bufAt a) * decodeBuf (s.bufAt b) % Config.hardware.modulus := by
  obtain ⟨t', ht', hdec, -⟩ := outputBufferHoldsCanonicalProduct s a b o hwf hadm
  obtain rfl := next_inj (h.symm.trans ht')
  exact hdec

/-- Settles O35: the second call's a input is the remainder that the first one wrote, and reducing that factor before
the second product does not change the result modulo P. -/
theorem chainedCallSeesProduct : Obligations.ChainedCallSeesProduct := by
  unfold Obligations.ChainedCallSeesProduct
  intro s t u a b o d e hwf hadm h hadm' h'
  have hwf' : t.mem.wf = true := multiply_keeps_mem_wf hwf h
  rw [exec_multiply_decodes hwf' hadm' h', exec_multiply_decodes hwf hadm h, Nat.mod_mul_mod]

/-! ## A reset during a call -/

/-- Whether an agent has an action depends on the agents alone, and one whose call was cut has none (70_reset R109). -/
theorem takeAction_none_of_loseAgent {s t : State} {k : Nat} (h : t.agents = (s.loseAgent k).agents) :
    t.takeAction k = none := by
  rw [State.takeAction, h, State.loseAgent]
  cases hk : s.agents[k]? with
  | none => simp [hk]
  | some ag =>
    have hlt : k < s.agents.length := (List.getElem?_eq_some_iff.mp hk).1
    simp [hlt]

/-- The event resetDuring k, when agent k has a call next: the reset cuts the decoded call in the state in which the
event and the agent's line are taken (70_reset R109). -/
theorem step_resetDuring_call {s t : State} {k : Nat} {rest : List Event} {d : List Byte} {i : Instr}
    (ha : s.abort = none) (hs : s.schedule = .resetDuring k :: rest)
    (ht : State.takeAction { s with schedule := rest } k = some (.call d, t))
    (hd : decodeDescriptor Config.hardware d = .ok i) : step s = cutCall Config.hardware k i t := by
  simp [step_live ha, fetch, hs, resetDuringCall, ht, hd]

/-- Each byte of a range written by a cut store is its old byte or the new buffer's. -/
theorem byteAt_putBytes_cutBytes {m : Memory} (hwf : m.wf = true) (n o : Nat) (buf : Buf) {i : Nat} (hi : i < 32) :
    (m.putBytes o (cutBytes n (m.bytesAt o 32) buf.bytes)).byteAt (o + i) = m.byteAt (o + i) ∨
      (m.putBytes o (cutBytes n (m.bytesAt o 32) buf.bytes)).byteAt (o + i) = buf.get i := by
  rw [byteAt_putBytes_inside hwf o i _ (by simpa [buf.length_eq] using hi), ← bytesAt_getD m o hi]
  exact cutBytes_getD n _ _ i (by simpa using hi) (by simpa [buf.length_eq] using hi)

theorem byteAt_putBytes_cutBytes_outside (m : Memory) (n o : Nat) (buf : Buf) {x : Nat} (hx : x < o ∨ o + 32 ≤ x) :
    (m.putBytes o (cutBytes n (m.bytesAt o 32) buf.bytes)).byteAt x = m.byteAt x :=
  byteAt_putBytes_outside m o x _ (by simpa [buf.length_eq] using hx)

/-- What a call on this hardware latches in R is the product modulo P (41_multiplier R70). -/
theorem hardware_latched_product (s : State) (a b : Nat) :
    (BitVec.ofNat 256 (productOf Config.hardware (s.bufAt a) (s.bufAt b) s.draws)).toNat =
      decodeBuf (s.bufAt a) * decodeBuf (s.bufAt b) % Config.hardware.modulus := by
  rw [BitVec.toNat_ofNat, Nat.mod_eq_of_lt (productOf_lt_two_pow Config.hardware_admissible.modulus ..), productOf,
    fmul_of_reduce rfl]

/-- Settles O49: the step is the cut of the decoded call, whose store keeps or replaces each byte of the out buffer.
(The model's own function has the name `resetDuringCall`.) -/
theorem resetDuringAdmittedCall : Obligations.ResetDuringCall := by
  unfold Obligations.ResetDuringCall
  intro s k rest ag d left a b o ha hwf hs hk hl hn hd hadm
  have ht := takeAction_of (s := { s with schedule := rest }) hk hl hn
  have hadm' : CallAdmitted Config.hardware _ a b o := (callAdmitted_congr rfl).mpr hadm
  refine ⟨_, (step_resetDuring_call ha hs ht hd).trans
      (cutCall_of_admitted k ((hardware_admission_admitted_iff ..).mpr hadm')),
    takeAction_none_of_loseAgent rfl, rfl, rfl, fun i hi => ?_, fun x hx => ?_, ?_⟩
  · rw [platformReset_mem, loseAgent_mem, hardware_latched_product]
    simp only [bufAt_eq]
    exact byteAt_putBytes_cutBytes hwf _ o _ hi
  · rw [platformReset_mem, loseAgent_mem]
    exact byteAt_putBytes_cutBytes_outside s.mem _ o _ hx
  · rw [platformReset_perm, loseAgent_perm]
    rfl

end Sys2Proof.Machine
